-- ==== Sys2Proof/Word.lean ====
section
/-! DEFINITION. The machine's words: a byte, a 32-bit word, a register number. -/

namespace Sys2Proof

/-- An "octet", the addressable unit of memory (rule R5; 8 bits is general knowledge, log 9). -/
abbrev Byte := BitVec 8

/-- A Word32: a general register, CP, a memory word, an address, an instruction (rules R5, R6). -/
abbrev Word := BitVec 32

/-- The number of a general register, R0 to R31, as a 5-bit field holds it (rules R20, R67). -/
abbrev Reg := BitVec 5

end Sys2Proof
end

