-- ==== Sys2Proof/Syntax.lean ====
section
/-! DEFINITION. The 34 instructions of Figure 3 (rule R70), over decoded fields. -/

namespace Sys2Proof

/-- One constructor per row of spec/opcode_table.json, operands in the order of the assembler syntax
(rule R82). `imm` is the 16-bit IMM field, `dest` the 26-bit destination field, `nb` the shift count:
a number, which `Instr.wellFormed` keeps within the 0 to 31 that can be written (rule R120). -/
inductive Instr where
  | add (rd rs rt : Reg)
  | addi (rt rs : Reg) (imm : BitVec 16)
  | addiu (rt rs : Reg) (imm : BitVec 16)
  | addu (rd rs rt : Reg)
  | and (rd rs rt : Reg)
  | andi (rt rs : Reg) (imm : BitVec 16)
  | beq (rs rt : Reg) (imm : BitVec 16)
  | bgez (rs : Reg) (imm : BitVec 16)
  | bgezal (rs : Reg) (imm : BitVec 16)
  | bgtz (rs : Reg) (imm : BitVec 16)
  | blez (rs : Reg) (imm : BitVec 16)
  | bltz (rs : Reg) (imm : BitVec 16)
  | bltzal (rs : Reg) (imm : BitVec 16)
  | bneq (rs rt : Reg) (imm : BitVec 16)
  | j (dest : BitVec 26)
  | jal (dest : BitVec 26)
  | jalr (rs rd : Reg)
  | jr (rs : Reg)
  | lui (rt : Reg) (imm : BitVec 16)
  | lw (rt : Reg) (imm : BitVec 16) (rs : Reg)
  | or (rd rs rt : Reg)
  | ori (rt rs : Reg) (imm : BitVec 16)
  | sll (rd rt : Reg) (nb : Nat)
  | slt (rd rs rt : Reg)
  | slti (rt rs : Reg) (imm : BitVec 16)
  | sltiu (rt rs : Reg) (imm : BitVec 16)
  | sltu (rd rs rt : Reg)
  | sra (rd rt : Reg) (nb : Nat)
  | srl (rd rt : Reg) (nb : Nat)
  | sub (rd rs rt : Reg)
  | subu (rd rs rt : Reg)
  | sw (rt : Reg) (imm : BitVec 16) (rs : Reg)
  | xor (rd rs rt : Reg)
  | xori (rt rs : Reg) (imm : BitVec 16)
  deriving DecidableEq, Repr

/-- The mnemonic of Figure 3, as spec/opcode_table.json spells it. -/
def Instr.mnemonic : Instr → String
  | .add _ _ _ => "ADD"
  | .addi _ _ _ => "ADDI"
  | .addiu _ _ _ => "ADDIU"
  | .addu _ _ _ => "ADDU"
  | .and _ _ _ => "AND"
  | .andi _ _ _ => "ANDI"
  | .beq _ _ _ => "BEQ"
  | .bgez _ _ => "BGEZ"
  | .bgezal _ _ => "BGEZAL"
  | .bgtz _ _ => "BGTZ"
  | .blez _ _ => "BLEZ"
  | .bltz _ _ => "BLTZ"
  | .bltzal _ _ => "BLTZAL"
  | .bneq _ _ _ => "BNEQ"
  | .j _ => "J"
  | .jal _ => "JAL"
  | .jalr _ _ => "JALR"
  | .jr _ => "JR"
  | .lui _ _ => "LUI"
  | .lw _ _ _ => "LW"
  | .or _ _ _ => "OR"
  | .ori _ _ _ => "ORI"
  | .sll _ _ _ => "SLL"
  | .slt _ _ _ => "SLT"
  | .slti _ _ _ => "SLTI"
  | .sltiu _ _ _ => "SLTIU"
  | .sltu _ _ _ => "SLTU"
  | .sra _ _ _ => "SRA"
  | .srl _ _ _ => "SRL"
  | .sub _ _ _ => "SUB"
  | .subu _ _ _ => "SUBU"
  | .sw _ _ _ => "SW"
  | .xor _ _ _ => "XOR"
  | .xori _ _ _ => "XORI"

end Sys2Proof
end

