-- ==== Sys2Proof/WellFormed.lean ====
section
/-! DEFINITION. Which terms of `Instr` stand for an instruction that can be written. Every field but the
shift count has a type of exactly its field's width, so the shift counts are all there is to check. -/

namespace Sys2Proof

/-- A shift count ranges over 0 to 31; "a shift by the register width (32) or more cannot be written"
(rule R120). -/
def shiftCountOk (nb : Nat) : Bool := nb < 32

/-- The instruction can be written: its shift count, if it has one, fits the field nb. -/
def Instr.wellFormed : Instr → Bool
  | .sll _ _ nb => shiftCountOk nb
  | .sra _ _ nb => shiftCountOk nb
  | .srl _ _ nb => shiftCountOk nb
  | .add _ _ _ => true
  | .addi _ _ _ => true
  | .addiu _ _ _ => true
  | .addu _ _ _ => true
  | .and _ _ _ => true
  | .andi _ _ _ => true
  | .beq _ _ _ => true
  | .bgez _ _ => true
  | .bgezal _ _ => true
  | .bgtz _ _ => true
  | .blez _ _ => true
  | .bltz _ _ => true
  | .bltzal _ _ => true
  | .bneq _ _ _ => true
  | .j _ => true
  | .jal _ => true
  | .jalr _ _ => true
  | .jr _ => true
  | .lui _ _ => true
  | .lw _ _ _ => true
  | .or _ _ _ => true
  | .ori _ _ _ => true
  | .slt _ _ _ => true
  | .slti _ _ _ => true
  | .sltiu _ _ _ => true
  | .sltu _ _ _ => true
  | .sub _ _ _ => true
  | .subu _ _ _ => true
  | .sw _ _ _ => true
  | .xor _ _ _ => true
  | .xori _ _ _ => true

end Sys2Proof
end

