-- ==== Sys2Proof/Decode.lean ====
section
/-! DEFINITION. Fields and formats of an instruction word, byte order, the decoder, the encoder, and the
opcode table as data (rules R41, R60 to R71, R74, R78). The field positions and the operation-code numbers
are the spec's own supply, "from general knowledge, not in source" (G1, G2; log 9). -/

namespace Sys2Proof

/-! ### Fields (rule R62) -/

def opField (w : Word) : BitVec 6 := w.extractLsb' 26 6
def rsField (w : Word) : Reg := w.extractLsb' 21 5
def rtField (w : Word) : Reg := w.extractLsb' 16 5
def rdField (w : Word) : Reg := w.extractLsb' 11 5
def nbField (w : Word) : BitVec 5 := w.extractLsb' 6 5
def extField (w : Word) : BitVec 6 := w.extractLsb' 0 6
def immField (w : Word) : BitVec 16 := w.extractLsb' 0 16
def destField (w : Word) : BitVec 26 := w.extractLsb' 0 26

/-! ### Formats (rules R63, R64, R65) -/

/-- FORMAT I, "IMMÉDIAT": OP, rs, rt, IMM (rule R63). -/
def formatI (op : BitVec 6) (rs rt : Reg) (imm : BitVec 16) : Word := op ++ rs ++ rt ++ imm

/-- FORMAT R, "REGISTRE": OP = 0, rs, rt, rd, nb, ext CO (rule R64). -/
def formatR (rs rt rd : Reg) (nb : BitVec 5) (ext : BitVec 6) : Word := 0#6 ++ rs ++ rt ++ rd ++ nb ++ ext

/-- FORMAT J, "SAUTS": OP, destination (rule R65). -/
def formatJ (op : BitVec 6) (dest : BitVec 26) : Word := op ++ dest

/-! ### Decoding a word (rule R71) -/

/-- Why a word, or a run of bytes, is no instruction. -/
inductive DecodeError where
  /-- OP is none of the 18 defined values (rules R71, R78). -/
  | undefinedOp (w : Word)
  /-- OP = 0 and ext CO is none of the 14 defined values (rules R71, R78). -/
  | undefinedExtension (w : Word)
  /-- OP = 1 and rt is none of the 4 defined values (rules R71, R78). -/
  | undefinedSelector (w : Word)
  /-- A "must be 0" field of the selected row is not 0 (rule R74). -/
  | unusedFieldNotZero (w : Word)
  /-- Fewer than the four bytes of an instruction (rule R60). -/
  | truncated
  deriving DecidableEq, Repr

/-- The selected instruction, if its row's "must be 0" fields are all 0 (rule R74). -/
def selected (w : Word) (unusedZero : Bool) (i : Instr) : Except DecodeError Instr :=
  if unusedZero then .ok i else .error (.unusedFieldNotZero w)

/-- The 14 rows with OP = 0, selected by ext CO. -/
def decodeSpecial (w : Word) : Except DecodeError Instr :=
  match (extField w).toNat with
  | 0x00 => selected w (rsField w == 0) (.sll (rdField w) (rtField w) (nbField w).toNat)
  | 0x02 => selected w (rsField w == 0) (.srl (rdField w) (rtField w) (nbField w).toNat)
  | 0x03 => selected w (rsField w == 0) (.sra (rdField w) (rtField w) (nbField w).toNat)
  | 0x08 => selected w (rtField w == 0 && rdField w == 0 && nbField w == 0) (.jr (rsField w))
  | 0x09 => selected w (rtField w == 0 && nbField w == 0) (.jalr (rsField w) (rdField w))
  | 0x20 => selected w (nbField w == 0) (.add (rdField w) (rsField w) (rtField w))
  | 0x21 => selected w (nbField w == 0) (.addu (rdField w) (rsField w) (rtField w))
  | 0x22 => selected w (nbField w == 0) (.sub (rdField w) (rsField w) (rtField w))
  | 0x23 => selected w (nbField w == 0) (.subu (rdField w) (rsField w) (rtField w))
  | 0x24 => selected w (nbField w == 0) (.and (rdField w) (rsField w) (rtField w))
  | 0x25 => selected w (nbField w == 0) (.or (rdField w) (rsField w) (rtField w))
  | 0x26 => selected w (nbField w == 0) (.xor (rdField w) (rsField w) (rtField w))
  | 0x2A => selected w (nbField w == 0) (.slt (rdField w) (rsField w) (rtField w))
  | 0x2B => selected w (nbField w == 0) (.sltu (rdField w) (rsField w) (rtField w))
  | _ => .error (.undefinedExtension w)

/-- The 4 rows with OP = 1, selected by the field rt. -/
def decodeRegimm (w : Word) : Except DecodeError Instr :=
  match (rtField w).toNat with
  | 0x00 => .ok (.bltz (rsField w) (immField w))
  | 0x01 => .ok (.bgez (rsField w) (immField w))
  | 0x10 => .ok (.bltzal (rsField w) (immField w))
  | 0x11 => .ok (.bgezal (rsField w) (immField w))
  | _ => .error (.undefinedSelector w)

/-- Rule R71: every 32-bit word is exactly one instruction, or is refused by name. -/
def decode (w : Word) : Except DecodeError Instr :=
  match (opField w).toNat with
  | 0x00 => decodeSpecial w
  | 0x01 => decodeRegimm w
  | 0x02 => .ok (.j (destField w))
  | 0x03 => .ok (.jal (destField w))
  | 0x04 => .ok (.beq (rsField w) (rtField w) (immField w))
  | 0x05 => .ok (.bneq (rsField w) (rtField w) (immField w))
  | 0x06 => selected w (rtField w == 0) (.blez (rsField w) (immField w))
  | 0x07 => selected w (rtField w == 0) (.bgtz (rsField w) (immField w))
  | 0x08 => .ok (.addi (rtField w) (rsField w) (immField w))
  | 0x09 => .ok (.addiu (rtField w) (rsField w) (immField w))
  | 0x0A => .ok (.slti (rtField w) (rsField w) (immField w))
  | 0x0B => .ok (.sltiu (rtField w) (rsField w) (immField w))
  | 0x0C => .ok (.andi (rtField w) (rsField w) (immField w))
  | 0x0D => .ok (.ori (rtField w) (rsField w) (immField w))
  | 0x0E => .ok (.xori (rtField w) (rsField w) (immField w))
  | 0x0F => selected w (rsField w == 0) (.lui (rtField w) (immField w))
  | 0x23 => .ok (.lw (rtField w) (immField w) (rsField w))
  | 0x2B => .ok (.sw (rtField w) (immField w) (rsField w))
  | _ => .error (.undefinedOp w)

/-! ### Bytes (rule R41) -/

/-- Byte `k`, 0 to 3, of the word `w` in memory: the byte at the word's address plus `k`. -/
def byteOf (bigEndian : Bool) (w : Word) (k : Nat) : Byte :=
  if bigEndian then w.extractLsb' (8 * (3 - k)) 8 else w.extractLsb' (8 * k) 8

/-- The word whose four bytes, in address order, are `b0` to `b3`. -/
def wordOf (bigEndian : Bool) (b0 b1 b2 b3 : Byte) : Word :=
  if bigEndian then b0 ++ b1 ++ b2 ++ b3 else b3 ++ b2 ++ b1 ++ b0

/-- The instruction that the first four bytes hold, in address order, and the bytes that follow it. -/
def decodeBytes (bigEndian : Bool) : List Byte → Except DecodeError (Instr × List Byte)
  | b0 :: b1 :: b2 :: b3 :: rest =>
    match decode (wordOf bigEndian b0 b1 b2 b3) with
    | .ok i => .ok (i, rest)
    | .error e => .error e
  | _ => .error .truncated

/-- The four bytes of a word, in address order. -/
def bytesOf (bigEndian : Bool) (w : Word) : List Byte :=
  [byteOf bigEndian w 0, byteOf bigEndian w 1, byteOf bigEndian w 2, byteOf bigEndian w 3]

/-- The word of an instruction whose low `nbits` bits are those of `w` and whose other bits are 0. -/
def tableWord (nbits w : Nat) : Word := BitVec.ofNat 32 (w % 2 ^ nbits)

/-- What the decoder reads from an opcode-table row's bits: the word laid out as bytes and decoded. -/
def decodeTableWord (nbits w : Nat) : Option Instr :=
  match decodeBytes true (bytesOf true (tableWord nbits w)) with
  | .ok (i, _) => some i
  | .error _ => none

/-! ### Encoding (rules R63 to R65, R70) -/

/-- The word of an instruction, its unused fields 0 (rule R74). -/
def encode : Instr → Word
  | .add rd rs rt => formatR rs rt rd 0 0x20
  | .addi rt rs imm => formatI 0x08 rs rt imm
  | .addiu rt rs imm => formatI 0x09 rs rt imm
  | .addu rd rs rt => formatR rs rt rd 0 0x21
  | .and rd rs rt => formatR rs rt rd 0 0x24
  | .andi rt rs imm => formatI 0x0C rs rt imm
  | .beq rs rt imm => formatI 0x04 rs rt imm
  | .bgez rs imm => formatI 0x01 rs 0x01 imm
  | .bgezal rs imm => formatI 0x01 rs 0x11 imm
  | .bgtz rs imm => formatI 0x07 rs 0 imm
  | .blez rs imm => formatI 0x06 rs 0 imm
  | .bltz rs imm => formatI 0x01 rs 0x00 imm
  | .bltzal rs imm => formatI 0x01 rs 0x10 imm
  | .bneq rs rt imm => formatI 0x05 rs rt imm
  | .j dest => formatJ 0x02 dest
  | .jal dest => formatJ 0x03 dest
  | .jalr rs rd => formatR rs 0 rd 0 0x09
  | .jr rs => formatR rs 0 0 0 0x08
  | .lui rt imm => formatI 0x0F 0 rt imm
  | .lw rt imm rs => formatI 0x23 rs rt imm
  | .or rd rs rt => formatR rs rt rd 0 0x25
  | .ori rt rs imm => formatI 0x0D rs rt imm
  | .sll rd rt nb => formatR 0 rt rd (BitVec.ofNat 5 nb) 0x00
  | .slt rd rs rt => formatR rs rt rd 0 0x2A
  | .slti rt rs imm => formatI 0x0A rs rt imm
  | .sltiu rt rs imm => formatI 0x0B rs rt imm
  | .sltu rd rs rt => formatR rs rt rd 0 0x2B
  | .sra rd rt nb => formatR 0 rt rd (BitVec.ofNat 5 nb) 0x03
  | .srl rd rt nb => formatR 0 rt rd (BitVec.ofNat 5 nb) 0x02
  | .sub rd rs rt => formatR rs rt rd 0 0x22
  | .subu rd rs rt => formatR rs rt rd 0 0x23
  | .sw rt imm rs => formatI 0x2B rs rt imm
  | .xor rd rs rt => formatR rs rt rd 0 0x26
  | .xori rt rs imm => formatI 0x0E rs rt imm

/-! ### The opcode table as data -/

/-- A row of spec/opcode_table.json: a word belongs to the row when its bits under `mask` are `pattern`. -/
structure OpcodeRow where
  mnemonic : String
  pattern : Word
  mask : Word
  deriving DecidableEq, Repr

/-- The word belongs to the row. -/
def OpcodeRow.holds (row : OpcodeRow) (w : Word) : Bool := w &&& row.mask == row.pattern

/-- The rows of the arithmetic, logical and LUI instructions. -/
def arithmeticRows : List OpcodeRow :=
  [⟨"ADD", 0x00000020, 0xFC0007FF⟩, ⟨"ADDI", 0x20000000, 0xFC000000⟩, ⟨"ADDIU", 0x24000000, 0xFC000000⟩,
   ⟨"ADDU", 0x00000021, 0xFC0007FF⟩, ⟨"AND", 0x00000024, 0xFC0007FF⟩, ⟨"ANDI", 0x30000000, 0xFC000000⟩,
   ⟨"LUI", 0x3C000000, 0xFFE00000⟩, ⟨"OR", 0x00000025, 0xFC0007FF⟩, ⟨"ORI", 0x34000000, 0xFC000000⟩,
   ⟨"SUB", 0x00000022, 0xFC0007FF⟩, ⟨"SUBU", 0x00000023, 0xFC0007FF⟩, ⟨"XOR", 0x00000026, 0xFC0007FF⟩,
   ⟨"XORI", 0x38000000, 0xFC000000⟩]

/-- The rows of the shifts, comparisons, loads and stores. -/
def shiftCompareMemoryRows : List OpcodeRow :=
  [⟨"LW", 0x8C000000, 0xFC000000⟩, ⟨"SLL", 0x00000000, 0xFFE0003F⟩, ⟨"SLT", 0x0000002A, 0xFC0007FF⟩,
   ⟨"SLTI", 0x28000000, 0xFC000000⟩, ⟨"SLTIU", 0x2C000000, 0xFC000000⟩, ⟨"SLTU", 0x0000002B, 0xFC0007FF⟩,
   ⟨"SRA", 0x00000003, 0xFFE0003F⟩, ⟨"SRL", 0x00000002, 0xFFE0003F⟩, ⟨"SW", 0xAC000000, 0xFC000000⟩]

/-- The rows of the branches and jumps. -/
def branchJumpRows : List OpcodeRow :=
  [⟨"BEQ", 0x10000000, 0xFC000000⟩, ⟨"BGEZ", 0x04010000, 0xFC1F0000⟩, ⟨"BGEZAL", 0x04110000, 0xFC1F0000⟩,
   ⟨"BGTZ", 0x1C000000, 0xFC1F0000⟩, ⟨"BLEZ", 0x18000000, 0xFC1F0000⟩, ⟨"BLTZ", 0x04000000, 0xFC1F0000⟩,
   ⟨"BLTZAL", 0x04100000, 0xFC1F0000⟩, ⟨"BNEQ", 0x14000000, 0xFC000000⟩, ⟨"J", 0x08000000, 0xFC000000⟩,
   ⟨"JAL", 0x0C000000, 0xFC000000⟩, ⟨"JALR", 0x00000009, 0xFC1F07FF⟩, ⟨"JR", 0x00000008, 0xFC1FFFFF⟩]

/-- The 34 rows of spec/opcode_table.json, match and mask (rule R70). -/
def opcodeTable : List OpcodeRow := arithmeticRows ++ shiftCompareMemoryRows ++ branchJumpRows

end Sys2Proof
end

