-- ==== Sys2Proof/Config.lean ====
section
/-! DEFINITION. The parameters the spec leaves open (rule R5): those a step is given, as a record, and the
values and free values the model's reset state takes for them. -/

namespace Sys2Proof

/-- A range of word addresses, from `first` to `last`, both included. -/
structure Region where
  first : Word
  last : Word
  deriving DecidableEq, Repr

/-- What a step is given besides the state and no instruction changes (rules R5, R32): the parameter
`BIG_ENDIAN`, and the parameter `Mapped` as the ranges of word addresses that hold memory (logs 1, 8). -/
structure Params where
  bigEndian : Bool
  mapped : List Region
  deriving DecidableEq, Repr

/-- The parameter `InitMem`: the word at each word address at the start of a run. A FREE VALUE (log 6):
it has no body, so nothing can be proved of a word that neither the host nor a store has written
(U12, D27). -/
opaque Config.initMem : Word → Word

/-- The parameter `ENTRY_PC` of the reset state. DESIGN CHOICE (log 3): the address rule R231 takes for its
test programs, "as a convenience, not as a fact about the hardware". -/
def Config.entryPc : Word := 0x80000000

/-- Every word address. -/
def Config.wholeSpace : Region := ⟨0x00000000, 0xFFFFFFFC⟩

/-- The parameters of the reset state. DESIGN CHOICE: big-endian (log 4), every word address mapped
(log 5). -/
def Config.resetParams : Params := ⟨true, [Config.wholeSpace]⟩

end Sys2Proof
end

