-- ==== Sys2Proof/Machine/State.lean ====
section
/-! DEFINITION. The machine's state as plain data (rule R32), its faults and refusals (rules R200 to R207),
and the state at the start of a run (rules R33, R230). -/

namespace Sys2Proof.Machine

/-- The kind of a memory access, which a fault records (rules R204, R206). -/
inductive Access where
  | fetch
  | load
  | store
  deriving DecidableEq, Repr

/-- The four faults (rule R200). A fault is terminal and precise: the instruction that raises it changes
no register, no memory word and not CP (rule R201). -/
inductive Fault where
  /-- Raised by a step whose fetched word decodes to no instruction (rules R74, R78, R202). Safe: the source
  does not say what such a word does (D14, log 18). -/
  | reservedInstruction (instr : Word)
  /-- Raised by ADD, ADDI and SUB when the signed result does not fit (rules R107, R203), with the
  instruction's word. Safe: no value is given to the overflowed result (D7, log 11). -/
  | integerOverflow (instr : Word)
  /-- Raised by a fetch, LW or SW whose address is not a multiple of 4 (rules R46, R47, R204). Safe: the
  source does not say what such an access does (D4, D5, log 19). -/
  | addressError (address : Word) (access : Access)
  /-- Raised by a fetch, LW or SW whose aligned address is not in `Mapped` (rules R50, R206). Safe: the
  source does not say what such an access does (D20, log 20). -/
  | accessFault (address : Word) (access : Access)
  deriving DecidableEq, Repr

/-- The cases to which no meaning is given. -/
inductive Refusal where
  /-- Raised by an arm of `exec` whose instruction has no meaning yet. Safe. -/
  | notModelled (mnemonic : String)
  /-- Raised by J in the last word of its 256-megabyte region (rules R161, R162, R207). Safe: the spec
  gives the case no next state (D10, log 15). -/
  | jInLastWordOfRegion
  /-- Raised by JAL in the last word of its 256-megabyte region (rules R161, R163, R207). Safe (log 15). -/
  | jalInLastWordOfRegion
  /-- Raised by BGEZAL with rs = R31 (rules R144, R150, R207). Safe: the spec gives the case no next
  state (D12, log 16). -/
  | bgezalOnR31
  /-- Raised by BLTZAL with rs = R31 (rules R148, R150, R207). Safe (log 16). -/
  | bltzalOnR31
  deriving DecidableEq, Repr

/-- The bytes that the host or a store has written, each with its address, in canonical form
(`Memory.wf`): addresses strictly rising. -/
abbrev Memory := List Host.Cell

/-- The state of rule R32, with the parameters a step is given (log 1). R0 is the constant 0 and has no
storage: `regs` holds R1 to R31. -/
structure State where
  /-- R1 to R31 (rule R20): index n holds R(n+1). -/
  regs : Vector Word 31
  /-- CP, the address of the next instruction (rule R24). -/
  cp : Word
  /-- What the host and the stores have written to memory (rules R30, R41). -/
  mem : Memory
  /-- The parameters `BIG_ENDIAN` and `Mapped` (rule R5): no instruction changes them. -/
  params : Params
  deriving DecidableEq, Repr

/-- The value of R1 to R31 in a state nothing has run from. DESIGN CHOICE (log 2): the spec gives none. -/
def resetRegister : Word := 0

/-- The state a host has prepared (rules R230, R232): CP at `entryPc`, memory holding `image`. -/
def State.start (params : Params) (entryPc : Word) (image : Memory) : State :=
  { regs := Vector.replicate 31 resetRegister, cp := entryPc, mem := image, params := params }

/-- The state at the start of a run (rule R33), nothing placed in memory, with the parameters of
`Config` (logs 2 to 6). -/
def State.reset : State := State.start Config.resetParams Config.entryPc []

end Sys2Proof.Machine
end

