-- ==== Sys2Proof/Machine/Ops.lean ====
section
/-! DEFINITION. The named operations over registers, CP and memory, raising a fault, and fetching. -/

namespace Sys2Proof.Machine

/-! ### General registers (rules R20 to R23) -/

/-- `x[r]`: R0 reads as zero (rule R21). -/
def State.reg (s : State) (r : Reg) : Word :=
  if r = 0 then 0 else s.regs[r.toNat - 1]'(by have := r.isLt; omega)

/-- `x[r] <- v`: a write to R0 is discarded (rule R22). -/
def State.setReg (s : State) (r : Reg) (v : Word) : State :=
  if r = 0 then s else { s with regs := s.regs.set (r.toNat - 1) v (by have := r.isLt; omega) }

/-- R31, the link register of JAL, BGEZAL and BLTZAL (rule R23). -/
def linkReg : Reg := 31

/-! ### The program counter (rules R24 to R26) -/

/-- `npc`, "l'adresse de l'instruction suivante", modulo 2^32 (rules R25, R26). -/
def State.npc (s : State) : Word := s.cp + 4

/-- `pc <- t`. -/
def State.goto (s : State) (t : Word) : State := { s with cp := t }

/-- The instruction is done and names no target: the next one is fetched at `npc` (rule R9). -/
def State.advance (s : State) : State := s.goto s.npc

/-! ### How an instruction ends (rules R200, R201, R207, R210, R211) -/

/-- What an instruction answers. -/
abbrev Result := Host.Outcome State Fault Refusal

/-- `raise F`: TAKING AN EXCEPTION, the one operation for it. The machine has no handler: no state is
saved, no mode is entered, control goes nowhere and there is no return (rules R201, R210, R211, R212); the
step ends in the fault, and the faulted state is the state before the instruction. -/
def raise (f : Fault) : Result := .fault f

/-- `refuse(reason)`: the spec gives the case no meaning (rule R207). -/
def refuse (r : Refusal) : Result := .refused r

/-- The instruction writes `v` to `rd` and is done. -/
def writeBack (s : State) (rd : Reg) (v : Word) : Result := .next (s.setReg rd v).advance

/-! ### Memory as bytes -/

/-- The byte written last at `a`, if the host or a store has written one. -/
def Memory.read (m : Memory) (a : Nat) : Option Byte :=
  match m with
  | [] => none
  | c :: rest => if c.1 = a then some c.2 else Memory.read rest a

/-- `m` with the byte `b` at `a`, in canonical form. -/
def Memory.write (m : Memory) (a : Nat) (b : Byte) : Memory :=
  match m with
  | [] => [(a, b)]
  | c :: rest =>
    if a < c.1 then (a, b) :: c :: rest
    else if a = c.1 then (a, b) :: rest
    else c :: Memory.write rest a b

/-- The canonical form: addresses strictly rising, within the 32-bit space. No entry can equal what an
unlisted address reads as: an unlisted address holds no written byte (log 6). -/
abbrev Memory.wf (m : Memory) : Prop :=
  m.Pairwise (fun c d => c.1 < d.1) ∧ ∀ c ∈ m, c.1 < 2 ^ 32

/-- The four bytes of `w` stored from `a` on, in the byte order (rule R41). -/
def Memory.writeWord (m : Memory) (bigEndian : Bool) (a : Nat) (w : Word) : Memory :=
  (((m.write a (byteOf bigEndian w 0)).write (a + 1) (byteOf bigEndian w 1)).write
    (a + 2) (byteOf bigEndian w 2)).write (a + 3) (byteOf bigEndian w 3)

/-- The words of `ws` stored at the word address `a` and the word addresses after it, as the host places a
program or its data (rule R232). DESIGN CHOICE (log 34): the word after the one at FFFFFFFCH goes to
00000000H, where CP goes after it (rule R26). -/
def Memory.writeWords (m : Memory) (bigEndian : Bool) (a : Word) : List Word → Memory
  | [] => m
  | w :: ws => (Memory.writeWords m bigEndian (a + 4) ws).writeWord bigEndian a.toNat w

/-- What an address nothing has written reads as: its byte of the free word that `InitMem` holds there,
in the byte order (rules R33, R41; log 6). -/
def unwrittenByte (bigEndian : Bool) (a : Nat) : Byte :=
  byteOf bigEndian (Config.initMem (BitVec.ofNat 32 (a / 4 * 4))) (a % 4)

/-- The byte at the address `a`: the model's read of one byte. -/
def State.byteAt (s : State) (a : Nat) : Byte :=
  match s.mem.read a with
  | some b => b
  | none => unwrittenByte s.params.bigEndian a

/-- `mem[a]` for a word address `a` (rules R40, R41): the word in the bytes `a` to `a + 3`. -/
def State.wordAt (s : State) (a : Word) : Word :=
  wordOf s.params.bigEndian (s.byteAt a.toNat) (s.byteAt (a.toNat + 1)) (s.byteAt (a.toNat + 2))
    (s.byteAt (a.toNat + 3))

/-- `mem[a] <- v`. -/
def State.setWord (s : State) (a v : Word) : State :=
  { s with mem := s.mem.writeWord s.params.bigEndian a.toNat v }

/-! ### The access primitives (rules R44 to R50) -/

/-- `a[1:0] = 0` (rules R46, R47). -/
def aligned (a : Word) : Bool := a.toNat % 4 == 0

/-- The word address `a` lies in the region. -/
def regionHolds (r : Region) (a : Word) : Bool := r.first.toNat ≤ a.toNat && a.toNat ≤ r.last.toNat

/-- `Mapped(a)` (rule R50). -/
def mappedIn (p : Params) (a : Word) : Bool := p.mapped.any (regionHolds · a)

/-- The tests of every access, alignment first (rules R44, R45, R208): the fault it raises, if any. -/
def accessCheck (s : State) (k : Access) (a : Word) : Option Fault :=
  if aligned a = false then some (.addressError a k)
  else if mappedIn s.params a = false then some (.accessFault a k)
  else none

/-- `MemRead(a, 4)` (rule R44). -/
def memRead (s : State) (k : Access) (a : Word) : Except Fault Word :=
  match accessCheck s k a with
  | some f => .error f
  | none => .ok (s.wordAt a)

/-- `MemWrite(a, 4, v)` (rule R45). -/
def memWrite (s : State) (a v : Word) : Except Fault State :=
  match accessCheck s .store a with
  | some f => .error f
  | none => .ok (s.setWord a v)

/-! ### Fetching (rules R25, R47, R55) -/

/-- The word at CP, read as any other word of memory. -/
def fetchWord (s : State) : Except Fault Word := memRead s .fetch s.cp

/-- The instruction at CP, or the fault of fetching or decoding it (rules R25, R202, R208). -/
def fetchInstr (s : State) : Except Fault Instr :=
  match fetchWord s with
  | .error f => .error f
  | .ok w =>
    match decode w with
    | .error _ => .error (.reservedInstruction w)
    | .ok i => .ok i

/-- `s` with the instruction word `w` placed at CP, as the host places a program (rule R232). -/
def placeAtCp (s : State) (w : Word) : State := s.setWord s.cp w

end Sys2Proof.Machine
end

