-- ==== Sys2Proof/Machine/Flags.lean ====
section
/-! DEFINITION. The machine has no flag and no condition code (rule R27). What takes their place: the range
test of signed arithmetic, the comparisons that give a register its 1 or 0, and the branch conditions. -/

namespace Sys2Proof.Machine

/-- The exact result lies in -2^31 to 2^31-1 (rule R107). -/
def fitsSigned (x : Int) : Bool := -2 ^ 31 ≤ x && x ≤ 2 ^ 31 - 1

/-- "Le registre contient 1 (vrai) ou 0 (faux)" (rule R130). -/
def boolWord (b : Bool) : Word := if b then 1 else 0

/-- Both operands read as signed (rules R131, R132). -/
def lessSigned (a b : Word) : Bool := a.toInt < b.toInt

/-- Both operands read as unsigned (rules R133, R134). -/
def lessUnsigned (a b : Word) : Bool := a.toNat < b.toNat

/-- `signed(a) >= 0` (rules R143, R144). -/
def geZero (a : Word) : Bool := 0 ≤ a.toInt

/-- `signed(a) > 0` (rule R145). -/
def gtZero (a : Word) : Bool := 0 < a.toInt

/-- `signed(a) <= 0` (rule R146). -/
def leZero (a : Word) : Bool := a.toInt ≤ 0

/-- `signed(a) < 0` (rules R147, R148). -/
def ltZero (a : Word) : Bool := a.toInt < 0

/-- An exact signed result: written to `rd` when it fits, else the instruction `i` overflows and writes
nothing, whatever `rd` is (rules R22, R107, R203). -/
def writeSigned (i : Instr) (s : State) (rd : Reg) (exact : Int) : Result :=
  if fitsSigned exact then writeBack s rd (BitVec.ofInt 32 exact) else raise (.integerOverflow (encode i))

end Sys2Proof.Machine
end

