-- ==== Sys2Proof/Machine/Operands.lean ====
section
/-! DEFINITION. The operand forms: immediates, branch and jump targets, effective address (rules R8, R10,
R66, R161, R162, R170). -/

namespace Sys2Proof.Machine

/-- SIMM, the immediate "avec extension de signe" (rules R8, R66). -/
def simm (imm : BitVec 16) : Word := imm.signExtend 32

/-- ZIMM, the immediate "avec 16 zéros à gauche" (rules R8, R66). -/
def zimm (imm : BitVec 16) : Word := imm.zeroExtend 32

/-- IMM in the high half, zeros in the low half (rule R117). -/
def upperImm (imm : BitVec 16) : Word := imm ++ 0#16

/-- ADBRANCH, `npc + SIMM` modulo 2^32: a byte displacement, not shifted (rules R10, R141; D9, log 14). -/
def State.adbranch (s : State) (imm : BitVec 16) : Word := s.npc + simm imm

/-- The target of J and JAL: the 4 high bits of the jump's own address, the destination field, two zero
bits (rules R161, R162; D10, log 15). -/
def State.jumpTarget (s : State) (dest : BitVec 26) : Word := s.cp.extractLsb' 28 4 ++ dest ++ 0#2

/-- The instruction stands in the last word of a 256-megabyte region, `pc[27:2]` all ones (rule R161). -/
def State.inLastWordOfRegion (s : State) : Bool := s.cp.extractLsb' 2 26 == 0x3FFFFFF#26

/-- EA, the address LW and SW access: `rs + SIMM` modulo 2^32 (rule R170; D6, D23, log 13). -/
def State.effectiveAddress (s : State) (rs : Reg) (imm : BitVec 16) : Word := s.reg rs + simm imm

end Sys2Proof.Machine
end

