-- ==== Sys2Proof/Machine/Arithmetic.lean ====
section
/-! DEFINITION. Integer addition and subtraction (40_arithmetic.md): ADD, ADDI, ADDIU, ADDU, SUB, SUBU. -/

namespace Sys2Proof.Machine

/-- ADD (rule R101). -/
def execAdd (rd rs rt : Reg) (s : State) : Result :=
  writeSigned (.add rd rs rt) s rd ((s.reg rs).toInt + (s.reg rt).toInt)

/-- ADDI (rule R102). -/
def execAddi (rt rs : Reg) (imm : BitVec 16) (s : State) : Result :=
  writeSigned (.addi rt rs imm) s rt ((s.reg rs).toInt + (simm imm).toInt)

/-- ADDIU (rule R103): SIMM, although the registers are read as unsigned. -/
def execAddiu (rt rs : Reg) (imm : BitVec 16) (s : State) : Result :=
  writeBack s rt (s.reg rs + simm imm)

/-- ADDU (rule R104). -/
def execAddu (rd rs rt : Reg) (s : State) : Result :=
  writeBack s rd (s.reg rs + s.reg rt)

/-- SUB (rule R105). -/
def execSub (rd rs rt : Reg) (s : State) : Result :=
  writeSigned (.sub rd rs rt) s rd ((s.reg rs).toInt - (s.reg rt).toInt)

/-- SUBU (rule R106). -/
def execSubu (rd rs rt : Reg) (s : State) : Result :=
  writeBack s rd (s.reg rs - s.reg rt)

end Sys2Proof.Machine
end

