-- ==== Sys2Proof/Machine/Branch.lean ====
section
/-! DEFINITION. Conditional branches (44_branches.md): BEQ, BGEZ, BGEZAL, BGTZ, BLEZ, BLTZ, BLTZAL, BNEQ. -/

namespace Sys2Proof.Machine

/-- A branch continues at ADBRANCH when its condition holds, at `npc` when not, at once (rule R140). -/
def branchIf (cond : Bool) (imm : BitVec 16) (s : State) : Result :=
  .next (s.goto (if cond then s.adbranch imm else s.npc))

/-- A linking branch stores `npc` in R31 whether or not it is taken; its condition was read before
(rule R150; D12, log 16). -/
def branchAndLinkIf (cond : Bool) (imm : BitVec 16) (s : State) : Result :=
  .next ((s.setReg linkReg s.npc).goto (if cond then s.adbranch imm else s.npc))

/-- BEQ (rule R142). -/
def execBeq (rs rt : Reg) (imm : BitVec 16) (s : State) : Result := branchIf (s.reg rs == s.reg rt) imm s

/-- BGEZ (rule R143). -/
def execBgez (rs : Reg) (imm : BitVec 16) (s : State) : Result := branchIf (geZero (s.reg rs)) imm s

/-- BGEZAL (rules R144, R150). -/
def execBgezal (rs : Reg) (imm : BitVec 16) (s : State) : Result :=
  if rs = linkReg then refuse .bgezalOnR31 else branchAndLinkIf (geZero (s.reg rs)) imm s

/-- BGTZ (rule R145). -/
def execBgtz (rs : Reg) (imm : BitVec 16) (s : State) : Result := branchIf (gtZero (s.reg rs)) imm s

/-- BLEZ (rule R146). -/
def execBlez (rs : Reg) (imm : BitVec 16) (s : State) : Result := branchIf (leZero (s.reg rs)) imm s

/-- BLTZ (rule R147). -/
def execBltz (rs : Reg) (imm : BitVec 16) (s : State) : Result := branchIf (ltZero (s.reg rs)) imm s

/-- BLTZAL (rules R148, R150). -/
def execBltzal (rs : Reg) (imm : BitVec 16) (s : State) : Result :=
  if rs = linkReg then refuse .bltzalOnR31 else branchAndLinkIf (ltZero (s.reg rs)) imm s

/-- BNEQ, also spelled BNE (rule R149). -/
def execBneq (rs rt : Reg) (imm : BitVec 16) (s : State) : Result := branchIf (s.reg rs != s.reg rt) imm s

end Sys2Proof.Machine
end

