-- ==== Sys2Proof/Machine/Compare.lean ====
section
/-! DEFINITION. Comparisons into a register (43_compare.md): SLT, SLTI, SLTIU, SLTU. -/

namespace Sys2Proof.Machine

/-- SLT (rule R131): both operands signed (D25, log 23). -/
def execSlt (rd rs rt : Reg) (s : State) : Result :=
  writeBack s rd (boolWord (lessSigned (s.reg rs) (s.reg rt)))

/-- SLTI (rule R132). -/
def execSlti (rt rs : Reg) (imm : BitVec 16) (s : State) : Result :=
  writeBack s rt (boolWord (lessSigned (s.reg rs) (simm imm)))

/-- SLTIU (rule R133): the immediate is ZIMM (D26, log 24). -/
def execSltiu (rt rs : Reg) (imm : BitVec 16) (s : State) : Result :=
  writeBack s rt (boolWord (lessUnsigned (s.reg rs) (zimm imm)))

/-- SLTU (rule R134). -/
def execSltu (rd rs rt : Reg) (s : State) : Result :=
  writeBack s rd (boolWord (lessUnsigned (s.reg rs) (s.reg rt)))

end Sys2Proof.Machine
end

