-- ==== Sys2Proof/Machine/Jump.lean ====
section
/-! DEFINITION. Jumps, calls and returns (45_jumps.md): J, JAL, JALR, JR. -/

namespace Sys2Proof.Machine

/-- J (rule R162), refused in the last word of its region (rule R161). -/
def execJ (dest : BitVec 26) (s : State) : Result :=
  if s.inLastWordOfRegion then refuse .jInLastWordOfRegion else .next (s.goto (s.jumpTarget dest))

/-- JAL (rule R163): the action of J, with `npc` in R31. -/
def execJal (dest : BitVec 26) (s : State) : Result :=
  if s.inLastWordOfRegion then refuse .jalInLastWordOfRegion
  else .next ((s.setReg linkReg s.npc).goto (s.jumpTarget dest))

/-- JALR (rule R164): the target is read before rd is written (D13, log 17). -/
def execJalr (rs rd : Reg) (s : State) : Result := .next ((s.setReg rd s.npc).goto (s.reg rs))

/-- JR (rule R165). -/
def execJr (rs : Reg) (s : State) : Result := .next (s.goto (s.reg rs))

end Sys2Proof.Machine
end

