-- ==== Sys2Proof/Machine/LoadStore.lean ====
section
/-! DEFINITION. Loads and stores (46_load_store.md): LW, SW. -/

namespace Sys2Proof.Machine

/-- LW (rule R171): on a fault rt keeps its value. -/
def execLw (rt : Reg) (imm : BitVec 16) (rs : Reg) (s : State) : Result :=
  match memRead s .load (s.effectiveAddress rs imm) with
  | .error f => raise f
  | .ok v => writeBack s rt v

/-- SW (rule R172). -/
def execSw (rt : Reg) (imm : BitVec 16) (rs : Reg) (s : State) : Result :=
  match memWrite s (s.effectiveAddress rs imm) (s.reg rt) with
  | .error f => raise f
  | .ok t => .next t.advance

end Sys2Proof.Machine
end

