-- ==== Sys2Proof/Machine/Logical.lean ====
section
/-! DEFINITION. Logical operations and LUI (41_logical.md): AND, ANDI, OR, ORI, XOR, XORI, LUI. -/

namespace Sys2Proof.Machine

/-- AND (rule R111). -/
def execAnd (rd rs rt : Reg) (s : State) : Result := writeBack s rd (s.reg rs &&& s.reg rt)

/-- ANDI (rule R112). -/
def execAndi (rt rs : Reg) (imm : BitVec 16) (s : State) : Result := writeBack s rt (s.reg rs &&& zimm imm)

/-- OR (rule R113). -/
def execOr (rd rs rt : Reg) (s : State) : Result := writeBack s rd (s.reg rs ||| s.reg rt)

/-- ORI (rule R114). -/
def execOri (rt rs : Reg) (imm : BitVec 16) (s : State) : Result := writeBack s rt (s.reg rs ||| zimm imm)

/-- XOR (rule R115). -/
def execXor (rd rs rt : Reg) (s : State) : Result := writeBack s rd (s.reg rs ^^^ s.reg rt)

/-- XORI (rule R116). -/
def execXori (rt rs : Reg) (imm : BitVec 16) (s : State) : Result := writeBack s rt (s.reg rs ^^^ zimm imm)

/-- LUI (rule R117): the old value of rt is not read. -/
def execLui (rt : Reg) (imm : BitVec 16) (s : State) : Result := writeBack s rt (upperImm imm)

end Sys2Proof.Machine
end

