-- ==== Sys2Proof/Machine/Shift.lean ====
section
/-! DEFINITION. Shifts by a constant (42_shifts.md): SLL, SRA, SRL. -/

namespace Sys2Proof.Machine

/-- SLL (rule R121): zeros enter at bit 0. -/
def execSll (rd rt : Reg) (nb : Nat) (s : State) : Result := writeBack s rd (s.reg rt <<< nb)

/-- SRA (rule R122): copies of bit 31 enter. -/
def execSra (rd rt : Reg) (nb : Nat) (s : State) : Result := writeBack s rd ((s.reg rt).sshiftRight nb)

/-- SRL (rule R123): zeros enter at bit 31. -/
def execSrl (rd rt : Reg) (nb : Nat) (s : State) : Result := writeBack s rd (s.reg rt >>> nb)

end Sys2Proof.Machine
end

