-- ==== Sys2Proof/Machine/Step.lean ====
section
/-! DEFINITION. One step of the machine (rule R25), and placing an instruction where it is fetched. -/

namespace Sys2Proof.Machine

/-- Rule R25: fetch the word at CP, decode it, execute the instruction. The instruction itself sets CP. -/
def step (s : State) : Host.Outcome State Fault Refusal :=
  match fetchInstr s with
  | .error f => raise f
  | .ok i => exec i s

/-- `s` with the instruction of an opcode-table row placed at CP: the host's part of rule R232 (log 7). -/
def State.withFetchWord (s : State) (nbits w : Nat) : State := placeAtCp s (tableWord nbits w)

end Sys2Proof.Machine
end

