-- ==== Sys2Proof/Machine/Assembler.lean ====
section
/-! DEFINITION. The assembly language of Figure 3 and of the programs of Q7 to Q10 (rules R81 to R84): a
tool of the host, which turns lines of text into the words it places in memory. No step uses it. -/

namespace Sys2Proof.Machine

/-- Why a line cannot be assembled. -/
inductive AsmError where
  /-- A mnemonic that is neither Figure 3's nor one of the two second spellings (rule R84). -/
  | unknownMnemonic (text : String)
  /-- Operands that do not have the form of the instruction (rule R82). -/
  | operandsOf (mnemonic : String)
  /-- An operand that is no register R0 to R31 (rules R20, R81). -/
  | notARegister (text : String)
  /-- An operand that is no number (rule R83). -/
  | notANumber (text : String)
  /-- A branch or jump operand that is neither a label of the program nor a number. -/
  | notATarget (text : String)
  /-- A label that two lines define. -/
  | labelTwice (text : String)
  /-- A shift count outside 0 to 31 (rule R120). -/
  | shiftCount (n : Int)
  /-- A branch or jump operand that is a number but no 32-bit address (log 35). -/
  | notAnAddress (n : Nat)
  /-- A branch target farther than a 16-bit displacement reaches (rule R83). -/
  | branchTooFar (target : Word)
  /-- A jump target outside the jump's own region (rule R83). -/
  | otherRegion (target : Word)
  /-- A jump target that is no word address (rule R83). -/
  | targetNotAligned (target : Word)
  deriving DecidableEq, Repr

/-! ### The fields a label or an address gives (rule R83) -/

/-- The IMM of a branch at `pc` to `target`: the byte distance from `pc + 4`, which must fit the signed
range of 16 bits. -/
def branchImm (pc target : Word) : Except AsmError (BitVec 16) :=
  let distance := (target - (pc + 4)).toInt
  if -32768 ≤ distance ∧ distance ≤ 32767 then .ok (BitVec.ofInt 16 distance)
  else .error (.branchTooFar target)

/-- The destination field of a J or JAL at `pc` to `target`: bits 27 to 2 of a word address in the
region of `pc`. -/
def jumpField (pc target : Word) : Except AsmError (BitVec 26) :=
  if aligned target = false then .error (.targetNotAligned target)
  else if target.extractLsb' 28 4 ≠ pc.extractLsb' 28 4 then .error (.otherRegion target)
  else .ok (target.extractLsb' 2 26)

/-! ### Reading text -/

/-- A blank between the parts of a line. -/
def isBlank (c : Char) : Bool := c == ' ' || c == '\t'

/-- The text without the blanks around it. -/
def trimBlanks (l : List Char) : List Char :=
  (((l.dropWhile isBlank).reverse).dropWhile isBlank).reverse

/-- The text before a comment, which "runs from // to the end of the line" (rule R81). -/
def beforeComment : List Char → List Char
  | [] => []
  | '/' :: '/' :: _ => []
  | c :: rest => c :: beforeComment rest

/-- The text before the first `c`, and what follows it, if `c` occurs. -/
def splitFirst (c : Char) : List Char → List Char × Option (List Char)
  | [] => ([], none)
  | d :: rest =>
    if d = c then ([], some rest)
    else
      let (front, back) := splitFirst c rest
      (d :: front, back)

/-- The parts of the text between separators `c`. -/
def splitAll (c : Char) : List Char → List (List Char)
  | [] => [[]]
  | d :: rest =>
    match splitAll c rest with
    | [] => [[d]]
    | part :: parts => if d = c then [] :: part :: parts else (d :: part) :: parts

/-- The value of a digit, 0 to 9 and A to F. -/
def digitValue (c : Char) : Option Nat :=
  if '0' ≤ c ∧ c ≤ '9' then some (c.toNat - '0'.toNat)
  else if 'A' ≤ c ∧ c ≤ 'F' then some (c.toNat - 'A'.toNat + 10)
  else none

/-- The value of digits below `base`, on from `acc`. -/
def digitsFrom (base acc : Nat) : List Char → Option Nat
  | [] => some acc
  | c :: rest =>
    match digitValue c with
    | some d => if d < base then digitsFrom base (base * acc + d) rest else none
    | none => none

/-- The value of one or more digits below `base`. -/
def digits (base : Nat) : List Char → Option Nat
  | [] => none
  | l => digitsFrom base 0 l

/-- A number of rule R83: hexadecimal with an H after it, decimal without; without H and with a letter
among its digits, "plainly hexadecimal" (log 32). The one other number that is plainly hexadecimal is read by
`parseHalf`. -/
def unsignedNumber (l : List Char) : Option Nat :=
  match l.getLast? with
  | some 'H' => digits 16 l.dropLast
  | _ => (digits 10 l).or (digits 16 l)

/-- A product of constants (rule R83), each factor a number. -/
def productOf : List (List Char) → Option Nat
  | [] => some 1
  | l :: rest =>
    match unsignedNumber (trimBlanks l), productOf rest with
    | some n, some m => some (n * m)
    | _, _ => none

/-- A number, a product of constants, or the negative of one (log 32). -/
def parseNumber (l : List Char) : Except AsmError Int :=
  match l with
  | '-' :: rest =>
    match productOf (splitAll '*' rest) with
    | some n => .ok (-(n : Int))
    | none => .error (.notANumber (String.ofList l))
  | _ =>
    match productOf (splitAll '*' l) with
    | some n => .ok (n : Int)
    | none => .error (.notANumber (String.ofList l))

/-- A register, "written R followed by its decimal number" (rule R20). -/
def parseReg (l : List Char) : Except AsmError Reg :=
  match l with
  | 'R' :: rest =>
    match digits 10 rest with
    | some n => if n < 32 then .ok (BitVec.ofNat 5 n) else .error (.notARegister (String.ofList l))
    | none => .error (.notARegister (String.ofList l))
  | _ => .error (.notARegister (String.ofList l))

/-- A 16-bit immediate: "the assembler keeps the low 16 bits of the value written" (rule R83). -/
def parseImm (l : List Char) : Except AsmError (BitVec 16) := do
  let n ← parseNumber l
  pure (BitVec.ofInt 16 n)

/-- The immediate of LUI or ORI, which give the two halves of a 32-bit constant (rule R84): a number of
exactly four digits without H is "plainly hexadecimal", as `8800` in the answers of Q7 (rule R83). That four
digits make it plain is the model's choice (log 32). -/
def parseHalf (l : List Char) : Except AsmError (BitVec 16) :=
  match if l.length = 4 then digits 16 l else none with
  | some n => .ok (BitVec.ofNat 16 n)
  | none => parseImm l

/-- A shift count, 0 to 31 (rule R120). -/
def parseCount (l : List Char) : Except AsmError Nat := do
  let n ← parseNumber l
  if 0 ≤ n ∧ n < 32 then pure n.toNat else .error (.shiftCount n)

/-- The operand `déplac.(rs)` of LW and SW (rule R82): the immediate and the base register. -/
def parseMem (l : List Char) : Except AsmError (BitVec 16 × Reg) :=
  match splitFirst '(' l with
  | (disp, some rest) =>
    match splitFirst ')' rest with
    | (base, some after) => do
      if trimBlanks after ≠ [] then .error (.notARegister (String.ofList rest)) else
      let imm ← parseImm (trimBlanks disp)
      let rs ← parseReg (trimBlanks base)
      pure (imm, rs)
    | _ => .error (.notARegister (String.ofList rest))
  | _ => .error (.operandsOf (String.ofList l))

/-! ### Labels and lines (rule R81) -/

/-- The labels of a program, each with its address, their names in lower case: "label names are
compared without regard to case". -/
abbrev Labels := List (List Char × Word)

/-- A label's name as it is compared (rule R81). DESIGN CHOICE (log 36): the letters A to Z are folded, and no
other letter is. -/
def labelKey (l : List Char) : List Char := l.map Char.toLower

/-- The operand of a branch or jump: a label, or the address itself (rule R83). DESIGN CHOICE (log 35): a
number above FFFFFFFFH is no address and is rejected. -/
def parseTarget (labels : Labels) (l : List Char) : Except AsmError Word :=
  match labels.lookup (labelKey l) with
  | some a => .ok a
  | none =>
    match unsignedNumber l with
    | some n => if n < 2 ^ 32 then .ok (BitVec.ofNat 32 n) else .error (.notAnAddress n)
    | none => .error (.notATarget (String.ofList l))

/-- The parts of a line: its label, and its mnemonic with its operands. -/
structure AsmLine where
  label : Option (List Char)
  body : Option (String × List (List Char))
  deriving DecidableEq, Repr

/-- The mnemonic and the operands, "separated by commas". -/
def parseBody (l : List Char) : Option (String × List (List Char)) :=
  match trimBlanks l with
  | [] => none
  | text =>
    match splitFirst ' ' text with
    | (mnemonic, some rest) => some (String.ofList mnemonic, (splitAll ',' rest).map trimBlanks)
    | (mnemonic, none) => some (String.ofList mnemonic, [])

/-- A line: an optional label with a colon after it, an optional instruction, an optional comment (rule R81).
DESIGN CHOICE (log 36): any text before the first colon is a label name, without the blanks around it. -/
def parseLine (l : List Char) : AsmLine :=
  let text := beforeComment l
  match splitFirst ':' text with
  | (label, some rest) => ⟨some (trimBlanks label), parseBody rest⟩
  | (_, none) => ⟨none, parseBody text⟩

/-! ### Instructions (rules R82, R84) -/

/-- `rd, rs, rt`. -/
def asmThree (mk : Reg → Reg → Reg → Instr) (mn : String) : List (List Char) → Except AsmError Instr
  | [a, b, c] => do pure (mk (← parseReg a) (← parseReg b) (← parseReg c))
  | _ => .error (.operandsOf mn)

/-- `rt, rs, IMM`, the immediate read by `imm`. -/
def asmImm (imm : List Char → Except AsmError (BitVec 16)) (mk : Reg → Reg → BitVec 16 → Instr) (mn : String) :
    List (List Char) → Except AsmError Instr
  | [a, b, c] => do pure (mk (← parseReg a) (← parseReg b) (← imm c))
  | _ => .error (.operandsOf mn)

/-- `rd, rt, nb`. -/
def asmShift (mk : Reg → Reg → Nat → Instr) (mn : String) : List (List Char) → Except AsmError Instr
  | [a, b, c] => do pure (mk (← parseReg a) (← parseReg b) (← parseCount c))
  | _ => .error (.operandsOf mn)

/-- `rt, déplac.(rs)`. -/
def asmMem (mk : Reg → BitVec 16 → Reg → Instr) (mn : String) : List (List Char) → Except AsmError Instr
  | [a, b] => do
    let rt ← parseReg a
    let (imm, rs) ← parseMem b
    pure (mk rt imm rs)
  | _ => .error (.operandsOf mn)

/-- `rs, rt, déplac.`, the displacement given by its target. -/
def asmBranchTwo (mk : Reg → Reg → BitVec 16 → Instr) (labels : Labels) (pc : Word) (mn : String) :
    List (List Char) → Except AsmError Instr
  | [a, b, c] => do pure (mk (← parseReg a) (← parseReg b) (← branchImm pc (← parseTarget labels c)))
  | _ => .error (.operandsOf mn)

/-- `rs, déplac.`, the displacement given by its target. -/
def asmBranchOne (mk : Reg → BitVec 16 → Instr) (labels : Labels) (pc : Word) (mn : String) :
    List (List Char) → Except AsmError Instr
  | [a, b] => do pure (mk (← parseReg a) (← branchImm pc (← parseTarget labels b)))
  | _ => .error (.operandsOf mn)

/-- `destination`, given by its target. -/
def asmJump (mk : BitVec 26 → Instr) (labels : Labels) (pc : Word) (mn : String) :
    List (List Char) → Except AsmError Instr
  | [a] => do pure (mk (← jumpField pc (← parseTarget labels a)))
  | _ => .error (.operandsOf mn)

/-- `rt, IMM` of LUI. -/
def asmLui (mn : String) : List (List Char) → Except AsmError Instr
  | [a, b] => do pure (.lui (← parseReg a) (← parseHalf b))
  | _ => .error (.operandsOf mn)

/-- `rs` of JR. -/
def asmJr (mn : String) : List (List Char) → Except AsmError Instr
  | [a] => do pure (.jr (← parseReg a))
  | _ => .error (.operandsOf mn)

/-- `rs, rd` of JALR: "source register first, link register second". -/
def asmJalr (mn : String) : List (List Char) → Except AsmError Instr
  | [a, b] => do pure (.jalr (← parseReg a) (← parseReg b))
  | _ => .error (.operandsOf mn)

/-- The instruction of a mnemonic and its operands, standing at `pc` (rule R82), with the second
spellings BNE and SLLI (rule R84). -/
def asmInstr (labels : Labels) (pc : Word) (mn : String) : List (List Char) → Except AsmError Instr :=
  match mn with
  | "ADD" => asmThree .add mn
  | "ADDI" => asmImm parseImm .addi mn
  | "ADDIU" => asmImm parseImm .addiu mn
  | "ADDU" => asmThree .addu mn
  | "AND" => asmThree .and mn
  | "ANDI" => asmImm parseImm .andi mn
  | "BEQ" => asmBranchTwo .beq labels pc mn
  | "BGEZ" => asmBranchOne .bgez labels pc mn
  | "BGEZAL" => asmBranchOne .bgezal labels pc mn
  | "BGTZ" => asmBranchOne .bgtz labels pc mn
  | "BLEZ" => asmBranchOne .blez labels pc mn
  | "BLTZ" => asmBranchOne .bltz labels pc mn
  | "BLTZAL" => asmBranchOne .bltzal labels pc mn
  | "BNEQ" => asmBranchTwo .bneq labels pc mn
  | "BNE" => asmBranchTwo .bneq labels pc mn
  | "J" => asmJump .j labels pc mn
  | "JAL" => asmJump .jal labels pc mn
  | "JALR" => asmJalr mn
  | "JR" => asmJr mn
  | "LUI" => asmLui mn
  | "LW" => asmMem .lw mn
  | "OR" => asmThree .or mn
  | "ORI" => asmImm parseHalf .ori mn
  | "SLL" => asmShift .sll mn
  | "SLLI" => asmShift .sll mn
  | "SLT" => asmThree .slt mn
  | "SLTI" => asmImm parseImm .slti mn
  | "SLTIU" => asmImm parseImm .sltiu mn
  | "SLTU" => asmThree .sltu mn
  | "SRA" => asmShift .sra mn
  | "SRL" => asmShift .srl mn
  | "SUB" => asmThree .sub mn
  | "SUBU" => asmThree .subu mn
  | "SW" => asmMem .sw mn
  | "XOR" => asmThree .xor mn
  | "XORI" => asmImm parseImm .xori mn
  | _ => fun _ => .error (.unknownMnemonic mn)

/-! ### Programs -/

/-- The address of the line after a line at `pc`: an instruction is 4 bytes (rule R60). -/
def afterLine (pc : Word) (line : AsmLine) : Word := if line.body.isSome then pc + 4 else pc

/-- The labels of the lines from `pc` on, each at the address of the next instruction. -/
def collectLabels (labels : Labels) (pc : Word) : List AsmLine → Except AsmError Labels
  | [] => .ok labels
  | line :: rest =>
    match line.label with
    | none => collectLabels labels (afterLine pc line) rest
    | some l =>
      if (labels.lookup (labelKey l)).isSome then .error (.labelTwice (String.ofList l))
      else collectLabels ((labelKey l, pc) :: labels) (afterLine pc line) rest

/-- The words of the lines from `pc` on. -/
def asmLines (labels : Labels) (pc : Word) : List AsmLine → Except AsmError (List Word)
  | [] => .ok []
  | line :: rest =>
    match line.body with
    | none => asmLines labels pc rest
    | some (mn, operands) => do
      let i ← asmInstr labels pc mn operands
      let ws ← asmLines labels (pc + 4) rest
      pure (encode i :: ws)

/-- The words of a program whose first instruction stands at `base`, one line of text a line. -/
def assemble (base : Word) (text : List String) : Except AsmError (List Word) := do
  let lines := text.map (fun l => parseLine l.toList)
  let labels ← collectLabels [] base lines
  asmLines labels base lines

end Sys2Proof.Machine
end

