-- ==== Sys2Proof/Safety.lean ====
section
/-! DEFINITION. What counts as a safe state and a finished run, and the words in which claims say what an
instruction changed. -/

namespace Sys2Proof

/-- The register that an instruction writes, if it writes one: rd or rt by its rule, R31 for the linking
forms that name none (rule R23). -/
def Instr.destination : Instr → Option Reg
  | .add rd _ _ => some rd
  | .addi rt _ _ => some rt
  | .addiu rt _ _ => some rt
  | .addu rd _ _ => some rd
  | .and rd _ _ => some rd
  | .andi rt _ _ => some rt
  | .beq _ _ _ => none
  | .bgez _ _ => none
  | .bgezal _ _ => some 31
  | .bgtz _ _ => none
  | .blez _ _ => none
  | .bltz _ _ => none
  | .bltzal _ _ => some 31
  | .bneq _ _ _ => none
  | .j _ => none
  | .jal _ => some 31
  | .jalr _ rd => some rd
  | .jr _ => none
  | .lui rt _ => some rt
  | .lw rt _ _ => some rt
  | .or rd _ _ => some rd
  | .ori rt _ _ => some rt
  | .sll rd _ _ => some rd
  | .slt rd _ _ => some rd
  | .slti rt _ _ => some rt
  | .sltiu rt _ _ => some rt
  | .sltu rd _ _ => some rd
  | .sra rd _ _ => some rd
  | .srl rd _ _ => some rd
  | .sub rd _ _ => some rd
  | .subu rd _ _ => some rd
  | .sw _ _ _ => none
  | .xor rd _ _ => some rd
  | .xori rt _ _ => some rt

end Sys2Proof

namespace Sys2Proof.Machine

/-! ### The invariant of memory -/

/-- What every step keeps: memory is in canonical form, and every byte it lists lies in a mapped word
(rule R32: memory is a map on the mapped word addresses). -/
def State.inv (s : State) : Prop :=
  s.mem.wf ∧ ∀ c ∈ s.mem, mappedIn s.params (BitVec.ofNat 32 (c.1 / 4 * 4)) = true

/-! ### Runs (rules R201, R236) -/

/-- How far a run has come. -/
inductive RunEnd where
  /-- CP was END_PC between two instructions: the run is over, in this state (rule R236). -/
  | over (s : State)
  /-- The step from this state faulted: the run has no final state (rule R201). -/
  | faulted (s : State) (f : Fault)
  /-- The step from this state was refused: the run has no final state (rule R207). -/
  | refused (s : State) (r : Refusal)
  /-- The steps allowed were taken and the run is not over. -/
  | running (s : State)
  deriving DecidableEq, Repr

/-- At most `n` steps from `s`, ending as soon as CP is `endPc`: the instruction there is not fetched
(rule R236). END_PC is an agreement of whoever states a claim, not a part of the machine (log 30). -/
def runUntil (endPc : Word) (n : Nat) (s : State) : RunEnd :=
  match n with
  | 0 => if s.cp = endPc then .over s else .running s
  | k + 1 =>
    if s.cp = endPc then .over s
    else
      match step s with
      | .next t => runUntil endPc k t
      | .fault f => .faulted s f
      | .refused r => .refused s r

/-! ### What an instruction changed -/

/-- Every byte of memory reads as before. -/
def SameMemory (s t : State) : Prop := ∀ a, t.byteAt a = s.byteAt a

/-- Every register reads as before. -/
def SameRegisters (s t : State) : Prop := ∀ r, t.reg r = s.reg r

/-- The register `d` reads as `v` and every other register as before. R0 reads as before, as 0, also
when it is `d` (rules R21, R22). -/
def WritesRegister (s t : State) (d : Reg) (v : Word) : Prop :=
  ∀ r, t.reg r = if r = d ∧ r ≠ 0 then v else s.reg r

/-- From `s` to `t`: `v` is written to `d`, and nothing else changed but CP. -/
def WritesOnly (s t : State) (d : Reg) (v : Word) : Prop :=
  WritesRegister s t d v ∧ SameMemory s t ∧ t.params = s.params

/-- From `s` to `t`: `v` is written to `d`, the next instruction is the one after, and nothing else
changed. -/
def Computes (s t : State) (d : Reg) (v : Word) : Prop :=
  t.cp = s.cp + 4 ∧ WritesRegister s t d v ∧ SameMemory s t ∧ t.params = s.params

/-- From `s` to `t`: control goes to `target` and nothing else changed. -/
def JumpsTo (s t : State) (target : Word) : Prop :=
  t.cp = target ∧ SameRegisters s t ∧ SameMemory s t ∧ t.params = s.params

/-- From `s` to `t`: control goes to `target`, `d` receives the address of the instruction after, and
nothing else changed. -/
def LinksAndJumpsTo (s t : State) (d : Reg) (target : Word) : Prop :=
  t.cp = target ∧ WritesRegister s t d (s.cp + 4) ∧ SameMemory s t ∧ t.params = s.params

/-- The word `w` stands in the four bytes from `a` on, and every other byte reads as in `s`. -/
def StoresWord (s t : State) (a w : Word) : Prop :=
  t.wordAt a = w ∧
    ∀ b, b < a.toNat ∨ a.toNat + 4 ≤ b → t.byteAt b = s.byteAt b

/-! ### What a program can see of memory (rule R42) -/

/-- The same machine state but for the byte order and the bytes that it arranges: the registers, CP and
`Mapped` agree, and so does every mapped word. -/
def SameButByteOrder (s t : State) : Prop :=
  SameRegisters s t ∧ t.cp = s.cp ∧ t.params.mapped = s.params.mapped ∧
    ∀ a, aligned a = true → mappedIn s.params a = true → t.wordAt a = s.wordAt a

/-- Two steps end alike: in states that agree but for the byte order, or in the same fault or refusal. -/
def EndAlike : Result → Result → Prop
  | .next s, .next t => SameButByteOrder s t
  | .fault f, .fault g => f = g
  | .refused r, .refused q => r = q
  | _, _ => False

end Sys2Proof.Machine
end

