-- ==== Sys2Proof/Certificates/Slice0/Obligations.lean ====
section
/-! DEFINITION. The statements about the machine. Where a statement rests on one of the spec's own decisions
(92_eei_decisions.md) or on a choice of the model, its docstring names it. -/

open Sys2Proof Sys2Proof.Machine

/-! ### Arithmetic (40_arithmetic.md) -/

/-- ADD, when the exact signed sum is in range: rd holds it and nothing else changed but CP. -/
def Obligations.AddWritesTheExactSum : Prop :=
  ∀ (s : State) (rd rs rt : Reg),
    -2 ^ 31 ≤ (s.reg rs).toInt + (s.reg rt).toInt → (s.reg rs).toInt + (s.reg rt).toInt ≤ 2 ^ 31 - 1 →
    ∃ t v, exec (.add rd rs rt) s = .next t ∧ v.toInt = (s.reg rs).toInt + (s.reg rt).toInt ∧
      Computes s t rd v

/-- ADDI, when the exact signed sum is in range: rt holds it and nothing else changed but CP. -/
def Obligations.AddiWritesTheExactSum : Prop :=
  ∀ (s : State) (rt rs : Reg) (imm : BitVec 16),
    -2 ^ 31 ≤ (s.reg rs).toInt + imm.toInt → (s.reg rs).toInt + imm.toInt ≤ 2 ^ 31 - 1 →
    ∃ t v, exec (.addi rt rs imm) s = .next t ∧ v.toInt = (s.reg rs).toInt + imm.toInt ∧
      Computes s t rt v

/-- SUB, when the exact signed difference is in range: rd holds it and nothing else changed but CP. -/
def Obligations.SubWritesTheExactDifference : Prop :=
  ∀ (s : State) (rd rs rt : Reg),
    -2 ^ 31 ≤ (s.reg rs).toInt - (s.reg rt).toInt → (s.reg rs).toInt - (s.reg rt).toInt ≤ 2 ^ 31 - 1 →
    ∃ t v, exec (.sub rd rs rt) s = .next t ∧ v.toInt = (s.reg rs).toInt - (s.reg rt).toInt ∧
      Computes s t rd v

/-- ADD, ADDI and SUB fault when the exact result is out of range, whatever the destination register is,
R0 too. The spec's decisions D7 and D28. -/
def Obligations.SignedArithmeticFaultsOutOfRange : Prop :=
  ∀ (s : State) (rd rs rt : Reg) (imm : BitVec 16),
    ((s.reg rs).toInt + (s.reg rt).toInt < -2 ^ 31 ∨ 2 ^ 31 - 1 < (s.reg rs).toInt + (s.reg rt).toInt →
      exec (.add rd rs rt) s = .fault (.integerOverflow (encode (.add rd rs rt)))) ∧
    ((s.reg rs).toInt + imm.toInt < -2 ^ 31 ∨ 2 ^ 31 - 1 < (s.reg rs).toInt + imm.toInt →
      exec (.addi rt rs imm) s = .fault (.integerOverflow (encode (.addi rt rs imm)))) ∧
    ((s.reg rs).toInt - (s.reg rt).toInt < -2 ^ 31 ∨ 2 ^ 31 - 1 < (s.reg rs).toInt - (s.reg rt).toInt →
      exec (.sub rd rs rt) s = .fault (.integerOverflow (encode (.sub rd rs rt))))

/-- ADDU: rd holds the sum modulo 2^32. The spec's decision D8 for sums past the range. -/
def Obligations.AdduWritesTheSumModulo : Prop :=
  ∀ (s : State) (rd rs rt : Reg),
    ∃ t v, exec (.addu rd rs rt) s = .next t ∧
      v.toNat = ((s.reg rs).toNat + (s.reg rt).toNat) % 2 ^ 32 ∧ Computes s t rd v

/-- ADDIU: rt holds rs plus the sign-extended immediate modulo 2^32. The spec's decision D8. -/
def Obligations.AddiuWritesTheSumModulo : Prop :=
  ∀ (s : State) (rt rs : Reg) (imm : BitVec 16),
    ∃ t v, exec (.addiu rt rs imm) s = .next t ∧
      (v.toNat : Int) = (((s.reg rs).toNat : Int) + imm.toInt) % 2 ^ 32 ∧ Computes s t rt v

/-- SUBU: rd holds the difference modulo 2^32. The spec's decision D8 for differences below 0. -/
def Obligations.SubuWritesTheDifferenceModulo : Prop :=
  ∀ (s : State) (rd rs rt : Reg),
    ∃ t v, exec (.subu rd rs rt) s = .next t ∧
      (v.toNat : Int) = (((s.reg rs).toNat : Int) - ((s.reg rt).toNat : Int)) % 2 ^ 32 ∧ Computes s t rd v

/-! ### Logical operations and LUI (41_logical.md), bit by bit; where CP goes is `OnlyBranchesAndJumpsSetCp` -/

/-- AND (R111). -/
def Obligations.AndWritesTheBitwiseAnd : Prop :=
  ∀ (s : State) (rd rs rt : Reg),
    ∃ t v, exec (.and rd rs rt) s = .next t ∧
      (∀ k, v.getLsbD k = ((s.reg rs).getLsbD k && (s.reg rt).getLsbD k)) ∧ WritesOnly s t rd v

/-- ANDI (R112): the immediate has no bit above 15. -/
def Obligations.AndiWritesTheBitwiseAnd : Prop :=
  ∀ (s : State) (rt rs : Reg) (imm : BitVec 16),
    ∃ t v, exec (.andi rt rs imm) s = .next t ∧
      (∀ k, v.getLsbD k = (decide (k < 16) && ((s.reg rs).getLsbD k && imm.getLsbD k))) ∧ WritesOnly s t rt v

/-- OR (R113). -/
def Obligations.OrWritesTheBitwiseOr : Prop :=
  ∀ (s : State) (rd rs rt : Reg),
    ∃ t v, exec (.or rd rs rt) s = .next t ∧
      (∀ k, v.getLsbD k = ((s.reg rs).getLsbD k || (s.reg rt).getLsbD k)) ∧ WritesOnly s t rd v

/-- ORI (R114): bits 31 to 16 of rs pass through. -/
def Obligations.OriWritesTheBitwiseOr : Prop :=
  ∀ (s : State) (rt rs : Reg) (imm : BitVec 16),
    ∃ t v, exec (.ori rt rs imm) s = .next t ∧
      (∀ k, v.getLsbD k = ((s.reg rs).getLsbD k || (decide (k < 16) && imm.getLsbD k))) ∧ WritesOnly s t rt v

/-- XOR (R115). -/
def Obligations.XorWritesTheBitwiseXor : Prop :=
  ∀ (s : State) (rd rs rt : Reg),
    ∃ t v, exec (.xor rd rs rt) s = .next t ∧
      (∀ k, v.getLsbD k = ((s.reg rs).getLsbD k ^^ (s.reg rt).getLsbD k)) ∧ WritesOnly s t rd v

/-- XORI (R116): only bits 15 to 0 can flip. -/
def Obligations.XoriWritesTheBitwiseXor : Prop :=
  ∀ (s : State) (rt rs : Reg) (imm : BitVec 16),
    ∃ t v, exec (.xori rt rs imm) s = .next t ∧
      (∀ k, v.getLsbD k = ((s.reg rs).getLsbD k ^^ (decide (k < 16) && imm.getLsbD k))) ∧ WritesOnly s t rt v

/-- LUI (R117): IMM in the 16 high bits, 0 in the 16 low bits. -/
def Obligations.LuiWritesTheHighHalf : Prop :=
  ∀ (s : State) (rt : Reg) (imm : BitVec 16),
    ∃ t v, exec (.lui rt imm) s = .next t ∧ v.toNat = imm.toNat * 2 ^ 16 ∧ WritesOnly s t rt v

/-! ### Shifts (42_shifts.md), for every count the field can hold -/

/-- SLL: rd holds rt times 2^nb modulo 2^32. That zeros enter is the spec's own inference from Q9. -/
def Obligations.SllMultipliesByAPowerOfTwo : Prop :=
  ∀ (s : State) (rd rt : Reg) (nb : Nat), nb < 32 →
    ∃ t v, exec (.sll rd rt nb) s = .next t ∧ v.toNat = (s.reg rt).toNat * 2 ^ nb % 2 ^ 32 ∧
      Computes s t rd v

/-- SRA: rd holds the signed value of rt divided by 2^nb, rounded toward minus infinity. The spec's
reading of "arithmétique" (G11). -/
def Obligations.SraDividesRoundingDown : Prop :=
  ∀ (s : State) (rd rt : Reg) (nb : Nat), nb < 32 →
    ∃ t v, exec (.sra rd rt nb) s = .next t ∧ v.toInt = Int.fdiv (s.reg rt).toInt (2 ^ nb) ∧
      Computes s t rd v

/-- SRL: rd holds the unsigned value of rt divided by 2^nb. The spec's reading of "logique" (G11). -/
def Obligations.SrlDividesUnsigned : Prop :=
  ∀ (s : State) (rd rt : Reg) (nb : Nat), nb < 32 →
    ∃ t v, exec (.srl rd rt nb) s = .next t ∧ v.toNat = (s.reg rt).toNat / 2 ^ nb ∧ Computes s t rd v

/-! ### Comparisons (43_compare.md) -/

/-- SLT. That both operands are signed is the spec's decision D25. -/
def Obligations.SltComparesSigned : Prop :=
  ∀ (s : State) (rd rs rt : Reg),
    ∃ t, exec (.slt rd rs rt) s = .next t ∧
      Computes s t rd (if (s.reg rs).toInt < (s.reg rt).toInt then 1 else 0)

/-- SLTI (R132): the immediate is sign-extended. Where CP goes is `OnlyBranchesAndJumpsSetCp`. -/
def Obligations.SltiComparesSigned : Prop :=
  ∀ (s : State) (rt rs : Reg) (imm : BitVec 16),
    ∃ t, exec (.slti rt rs imm) s = .next t ∧
      WritesOnly s t rt (if (s.reg rs).toInt < imm.toInt then 1 else 0)

/-- SLTIU: the immediate is zero-extended. The spec's decision D26 to follow the source's ZIMM. -/
def Obligations.SltiuComparesUnsigned : Prop :=
  ∀ (s : State) (rt rs : Reg) (imm : BitVec 16),
    ∃ t, exec (.sltiu rt rs imm) s = .next t ∧
      Computes s t rt (if (s.reg rs).toNat < imm.toNat then 1 else 0)

/-- SLTU (R134). Where CP goes is `OnlyBranchesAndJumpsSetCp`. -/
def Obligations.SltuComparesUnsigned : Prop :=
  ∀ (s : State) (rd rs rt : Reg),
    ∃ t, exec (.sltu rd rs rt) s = .next t ∧
      WritesOnly s t rd (if (s.reg rs).toNat < (s.reg rt).toNat then 1 else 0)

/-! ### Branches (44_branches.md): the target is the next instruction's address plus the immediate -/

/-- BEQ (R142), with the byte displacement of rule R10. -/
def Obligations.BeqBranchesWhenEqual : Prop :=
  ∀ (s : State) (rs rt : Reg) (imm : BitVec 16),
    ∃ t, exec (.beq rs rt imm) s = .next t ∧
      JumpsTo s t (if s.reg rs = s.reg rt then BitVec.ofInt 32 (s.cp.toNat + 4 + imm.toInt) else s.cp + 4)

/-- BNEQ (R149), with the byte displacement of rule R10. -/
def Obligations.BneqBranchesWhenDifferent : Prop :=
  ∀ (s : State) (rs rt : Reg) (imm : BitVec 16),
    ∃ t, exec (.bneq rs rt imm) s = .next t ∧
      JumpsTo s t (if s.reg rs = s.reg rt then s.cp + 4 else BitVec.ofInt 32 (s.cp.toNat + 4 + imm.toInt))

/-- BGEZ. That the comparison is signed is the spec's own inference. -/
def Obligations.BgezBranchesOnSignBitClear : Prop :=
  ∀ (s : State) (rs : Reg) (imm : BitVec 16),
    ∃ t, exec (.bgez rs imm) s = .next t ∧
      JumpsTo s t
        (if (s.reg rs).toNat < 2 ^ 31 then BitVec.ofInt 32 (s.cp.toNat + 4 + imm.toInt) else s.cp + 4)

/-- BGTZ (R145), with the byte displacement of rule R10. -/
def Obligations.BgtzBranchesOnPositive : Prop :=
  ∀ (s : State) (rs : Reg) (imm : BitVec 16),
    ∃ t, exec (.bgtz rs imm) s = .next t ∧
      JumpsTo s t
        (if 0 < (s.reg rs).toNat ∧ (s.reg rs).toNat < 2 ^ 31 then
          BitVec.ofInt 32 (s.cp.toNat + 4 + imm.toInt) else s.cp + 4)

/-- BLEZ (R146), with the byte displacement of rule R10. -/
def Obligations.BlezBranchesOnZeroOrNegative : Prop :=
  ∀ (s : State) (rs : Reg) (imm : BitVec 16),
    ∃ t, exec (.blez rs imm) s = .next t ∧
      JumpsTo s t
        (if (s.reg rs).toNat = 0 ∨ 2 ^ 31 ≤ (s.reg rs).toNat then
          BitVec.ofInt 32 (s.cp.toNat + 4 + imm.toInt) else s.cp + 4)

/-- BLTZ (R147), with the byte displacement of rule R10. -/
def Obligations.BltzBranchesOnSignBitSet : Prop :=
  ∀ (s : State) (rs : Reg) (imm : BitVec 16),
    ∃ t, exec (.bltz rs imm) s = .next t ∧
      JumpsTo s t
        (if 2 ^ 31 ≤ (s.reg rs).toNat then BitVec.ofInt 32 (s.cp.toNat + 4 + imm.toInt) else s.cp + 4)

/-- BGEZAL with rs other than R31: R31 receives the next instruction's address, taken or not. The spec's
decision D12. -/
def Obligations.BgezalLinksAndBranches : Prop :=
  ∀ (s : State) (rs : Reg) (imm : BitVec 16), rs ≠ 31 →
    ∃ t, exec (.bgezal rs imm) s = .next t ∧
      LinksAndJumpsTo s t 31
        (if (s.reg rs).toNat < 2 ^ 31 then BitVec.ofInt 32 (s.cp.toNat + 4 + imm.toInt) else s.cp + 4)

/-- BLTZAL with rs other than R31: R31 receives the next instruction's address, taken or not. The spec's
decision D12. -/
def Obligations.BltzalLinksAndBranches : Prop :=
  ∀ (s : State) (rs : Reg) (imm : BitVec 16), rs ≠ 31 →
    ∃ t, exec (.bltzal rs imm) s = .next t ∧
      LinksAndJumpsTo s t 31
        (if 2 ^ 31 ≤ (s.reg rs).toNat then BitVec.ofInt 32 (s.cp.toNat + 4 + imm.toInt) else s.cp + 4)

/-- A branch taken to an address that is not a multiple of 4 completes, and the fetch that follows faults
with that address in CP. The spec's decisions D5 and D9. -/
def Obligations.MisalignedBranchTargetFaultsAtTheFetch : Prop :=
  ∀ (s : State) (rs rt : Reg) (imm : BitVec 16),
    aligned s.cp = true → s.reg rs = s.reg rt → imm.toNat % 4 ≠ 0 →
    ∃ t, exec (.beq rs rt imm) s = .next t ∧
      t.cp = BitVec.ofInt 32 (s.cp.toNat + 4 + imm.toInt) ∧ step t = .fault (.addressError t.cp .fetch)

/-! ### Jumps (45_jumps.md) -/

/-- J outside the last word of a region: the 4 high bits of its own address, the field, two zero bits. The
spec's decision D10 for which address. -/
def Obligations.JJumpsWithinItsRegion : Prop :=
  ∀ (s : State) (dest : BitVec 26), s.cp.toNat / 4 % 2 ^ 26 ≠ 2 ^ 26 - 1 →
    ∃ t target, exec (.j dest) s = .next t ∧
      target.toNat = s.cp.toNat / 2 ^ 28 * 2 ^ 28 + dest.toNat * 4 ∧ JumpsTo s t target

/-- JAL outside the last word of a region: as J, and R31 receives the next instruction's address. The
spec's decisions D10 and D11. -/
def Obligations.JalLinksAndJumpsWithinItsRegion : Prop :=
  ∀ (s : State) (dest : BitVec 26), s.cp.toNat / 4 % 2 ^ 26 ≠ 2 ^ 26 - 1 →
    ∃ t target, exec (.jal dest) s = .next t ∧
      target.toNat = s.cp.toNat / 2 ^ 28 * 2 ^ 28 + dest.toNat * 4 ∧ LinksAndJumpsTo s t 31 target

/-- JALR: the target is the old value of rs, also when rd is rs, and nothing is written when rd is R0. The
spec's decision D13. -/
def Obligations.JalrLinksAndJumpsToTheOldRegister : Prop :=
  ∀ (s : State) (rs rd : Reg),
    ∃ t, exec (.jalr rs rd) s = .next t ∧ LinksAndJumpsTo s t rd (s.reg rs)

/-- JR (R165): all 32 bits of rs become CP. -/
def Obligations.JrJumpsToTheRegister : Prop :=
  ∀ (s : State) (rs : Reg), ∃ t, exec (.jr rs) s = .next t ∧ JumpsTo s t (s.reg rs)

/-- An instruction is refused exactly when it is J or JAL in the last word of a region, or BGEZAL or BLTZAL
on R31. The spec's decisions D10 and D12. -/
def Obligations.RefusedExactlyInTheFourCases : Prop :=
  ∀ (i : Instr) (s : State) (r : Refusal), exec i s = .refused r ↔
    (∃ dest, i = .j dest ∧ s.cp.toNat / 4 % 2 ^ 26 = 2 ^ 26 - 1 ∧ r = .jInLastWordOfRegion) ∨
    (∃ dest, i = .jal dest ∧ s.cp.toNat / 4 % 2 ^ 26 = 2 ^ 26 - 1 ∧ r = .jalInLastWordOfRegion) ∨
    (∃ imm, i = .bgezal 31 imm ∧ r = .bgezalOnR31) ∨ (∃ imm, i = .bltzal 31 imm ∧ r = .bltzalOnR31)

/-! ### Loads and stores (46_load_store.md, 20_memory.md) -/

/-- The effective address is the base plus the sign-extended immediate, modulo 2^32. The spec's decisions
D6 and D23. -/
def Obligations.EffectiveAddressIsBasePlusDisplacement : Prop :=
  ∀ (s : State) (rs : Reg) (imm : BitVec 16),
    ((s.effectiveAddress rs imm).toNat : Int) = (((s.reg rs).toNat : Int) + imm.toInt) % 2 ^ 32

/-- LW at an aligned mapped address: rt holds the word there and nothing else changed but CP. The spec's
decisions D4, D6 and D20 for the address and its tests. -/
def Obligations.LwLoadsTheWord : Prop :=
  ∀ (s : State) (rt rs : Reg) (imm : BitVec 16),
    aligned (s.effectiveAddress rs imm) = true → mappedIn s.params (s.effectiveAddress rs imm) = true →
    ∃ t, exec (.lw rt imm rs) s = .next t ∧ Computes s t rt (s.wordAt (s.effectiveAddress rs imm))

/-- SW at an aligned mapped address: the word there is rt, and no other byte, no register and no parameter
changed. The spec's decisions D4, D6 and D20 for the address and its tests. -/
def Obligations.SwStoresTheWord : Prop :=
  ∀ (s : State) (rt rs : Reg) (imm : BitVec 16),
    aligned (s.effectiveAddress rs imm) = true → mappedIn s.params (s.effectiveAddress rs imm) = true →
    ∃ t, exec (.sw rt imm rs) s = .next t ∧
      StoresWord s t (s.effectiveAddress rs imm) (s.reg rt) ∧ t.cp = s.cp + 4 ∧ SameRegisters s t ∧
      t.params = s.params

/-- LW and SW test alignment first, then the map, and fault with the address and the kind of access. The
spec's decisions D4 and D20. -/
def Obligations.DataAccessFaultsInOrder : Prop :=
  ∀ (s : State) (rt rs : Reg) (imm : BitVec 16),
    ((s.effectiveAddress rs imm).toNat % 4 ≠ 0 →
      exec (.lw rt imm rs) s = .fault (.addressError (s.effectiveAddress rs imm) .load) ∧
      exec (.sw rt imm rs) s = .fault (.addressError (s.effectiveAddress rs imm) .store)) ∧
    ((s.effectiveAddress rs imm).toNat % 4 = 0 → mappedIn s.params (s.effectiveAddress rs imm) = false →
      exec (.lw rt imm rs) s = .fault (.accessFault (s.effectiveAddress rs imm) .load) ∧
      exec (.sw rt imm rs) s = .fault (.accessFault (s.effectiveAddress rs imm) .store))

/-- After a SW, the LW of the same operands gives the value stored, whatever register it goes to. The
spec's decision D21. -/
def Obligations.LoadAfterStoreGivesTheStoredWord : Prop :=
  ∀ (s t : State) (rt rs rd : Reg) (imm : BitVec 16), exec (.sw rt imm rs) s = .next t →
    ∃ u, exec (.lw rd imm rs) t = .next u ∧ Computes t u rd (s.reg rt)

/-- After a SW, a fetch of the word stored runs it as an instruction. The spec's decision D22. -/
def Obligations.StoreIsSeenByTheFetch : Prop :=
  ∀ (s t : State) (rt rs : Reg) (imm : BitVec 16) (i : Instr), exec (.sw rt imm rs) s = .next t →
    decode (s.reg rt) = .ok i → t.cp = s.effectiveAddress rs imm → step t = exec i t

/-! ### Immediates (rule R8) -/

/-- R8: SIMM is the sign bit repeated 16 times before the 16 bits, ZIMM sixteen zeros before them. -/
def Obligations.ImmediatesAreExtended : Prop :=
  ∀ (imm : BitVec 16) (k : Nat), k < 32 →
    (simm imm).getLsbD k = (if k < 16 then imm.getLsbD k else imm.getLsbD 15) ∧
    (zimm imm).getLsbD k = (if k < 16 then imm.getLsbD k else false)

/-! ### The step (10_state.md, 60_exceptions.md) -/

/-- When the bytes at an aligned mapped CP decode to an instruction, the step is its execution. -/
def Obligations.StepRunsTheDecodedInstruction : Prop :=
  ∀ (s : State) (i : Instr) (rest : List Byte), aligned s.cp = true → mappedIn s.params s.cp = true →
    decodeBytes s.params.bigEndian
      [s.byteAt s.cp.toNat, s.byteAt (s.cp.toNat + 1), s.byteAt (s.cp.toNat + 2),
        s.byteAt (s.cp.toNat + 3)] = .ok (i, rest) →
    step s = exec i s

/-- A run that the host starts, with a program's words placed from an aligned mapped ENTRY_PC on, begins with
the program's first instruction, in a state where R0 is 0 and CP is ENTRY_PC. The spec's decision D18. -/
def Obligations.StartedRunBeginsWithTheFirstWord : Prop :=
  ∀ (p : Params) (entryPc w : Word) (ws : List Word) (i : Instr) (s : State),
    s = State.start p entryPc (Memory.writeWords [] p.bigEndian entryPc (w :: ws)) →
    aligned entryPc = true → mappedIn p entryPc = true → decode w = .ok i →
    s.reg 0 = 0 ∧ s.cp = entryPc ∧ step s = exec i s

/-- The tests of a fetch, in order: alignment, the map, the decoding. The spec's decisions D5, D14 and
D20. -/
def Obligations.FetchFaultsInOrder : Prop :=
  ∀ s : State,
    (s.cp.toNat % 4 ≠ 0 → step s = .fault (.addressError s.cp .fetch)) ∧
    (s.cp.toNat % 4 = 0 → mappedIn s.params s.cp = false → step s = .fault (.accessFault s.cp .fetch)) ∧
    (s.cp.toNat % 4 = 0 → mappedIn s.params s.cp = true →
      (∀ i, decode (s.wordAt s.cp) ≠ .ok i) → step s = .fault (.reservedInstruction (s.wordAt s.cp)))

/-- An instruction faults only as its rule says: ADD, ADDI and SUB with an overflow that records their word,
LW and SW with the fault of their access. The spec's decisions D7 and D15. -/
def Obligations.OnlyTheNamedInstructionsFault : Prop :=
  ∀ (i : Instr) (s : State) (f : Fault), exec i s = .fault f →
    (i.mnemonic ∈ ["ADD", "ADDI", "SUB"] ∧ f = .integerOverflow (encode i)) ∨
    (∃ rt imm rs, i = .lw rt imm rs ∧
      (f = .addressError (s.effectiveAddress rs imm) .load ∨
        f = .accessFault (s.effectiveAddress rs imm) .load)) ∨
    (∃ rt imm rs, i = .sw rt imm rs ∧
      (f = .addressError (s.effectiveAddress rs imm) .store ∨
        f = .accessFault (s.effectiveAddress rs imm) .store))

/-! ### Frames over all instructions -/

/-- An instruction that completes changes no register but its destination, and R0 not even then. The spec's
inference from "câblé à 0" for R0. -/
def Obligations.OnlyTheDestinationRegisterChanges : Prop :=
  ∀ (i : Instr) (s t : State) (r : Reg), exec i s = .next t → i.destination ≠ some r ∨ r = 0 →
    t.reg r = s.reg r

/-- An instruction that completes and is not SW changes no byte of memory. -/
def Obligations.OnlySwChangesMemory : Prop :=
  ∀ (i : Instr) (s t : State), exec i s = .next t → i.mnemonic ≠ "SW" → ∀ a, t.byteAt a = s.byteAt a

/-- An instruction that completes and is no branch or jump goes on to the instruction after, 4 bytes on. The
spec's inference that an instruction is 4 bytes, and its decision D11. -/
def Obligations.OnlyBranchesAndJumpsSetCp : Prop :=
  ∀ (i : Instr) (s t : State), exec i s = .next t →
    i.mnemonic ∉ ["BEQ", "BGEZ", "BGEZAL", "BGTZ", "BLEZ", "BLTZ", "BLTZAL", "BNEQ", "J", "JAL", "JALR", "JR"] →
    t.cp = s.cp + 4

/-- No step changes the byte order or the map. -/
def Obligations.StepKeepsTheParameters : Prop :=
  ∀ s t : State, step s = .next t → t.params = s.params

/-! ### Encoding (30_encoding.md): the field positions and numbers are the spec's supply (G1, G2) -/

/-- Decoding the word of a well-formed instruction gives the instruction, every operand at every value. -/
def Obligations.DecodeOfEncode : Prop :=
  ∀ i : Instr, i.wellFormed = true → decode (encode i) = .ok i

/-- A word that decodes is the word of the instruction it decodes to: no bit is ignored. -/
def Obligations.EncodeOfDecode : Prop :=
  ∀ (w : Word) (i : Instr), decode w = .ok i → i.wellFormed = true ∧ encode i = w

/-- The decoder, written by cases on the fields, accepts exactly the words of the opcode table's rows, each
as its row's instruction. -/
def Obligations.DecoderFollowsTheOpcodeTable : Prop :=
  ∀ (w : Word) (mn : String),
    (∃ i, decode w = .ok i ∧ i.mnemonic = mn) ↔
      ∃ row ∈ opcodeTable, row.mnemonic = mn ∧ w &&& row.mask = row.pattern

/-- Words of the source's programs, and reserved words, decoded: a sanity statement. -/
def Obligations.SampleWordsDecode : Prop :=
  decode 0x00202020 = .ok (.add 4 1 0) ∧ decode 0x34218800 = .ok (.ori 1 1 0x8800) ∧
  decode 0x00052880 = .ok (.sll 5 5 2) ∧ decode 0x0081302A = .ok (.slt 6 4 1) ∧
  decode 0x1443FFF4 = .ok (.bneq 2 3 0xFFF4) ∧ decode 0x03E00008 = .ok (.jr 31) ∧
  decode 0xAC050100 = .ok (.sw 5 0x0100 0) ∧
  decode 0x00221860 = .error (.unusedFieldNotZero 0x00221860) ∧
  decode 0x0000000C = .error (.undefinedExtension 0x0000000C) ∧
  decode 0x04220000 = .error (.undefinedSelector 0x04220000) ∧
  decode 0x40000000 = .error (.undefinedOp 0x40000000)

/-! ### Invariants and whole-machine rules -/

/-- Every step keeps memory in canonical form and its listed bytes within mapped words. -/
def Obligations.StepKeepsMemoryCanonical : Prop :=
  ∀ s t : State, s.inv → step s = .next t → t.inv

/-- The invariant holds at reset. Memory with nothing listed is the model's choice (log 6), and so is the
reset map (log 5). -/
def Obligations.ResetMemoryIsCanonical : Prop := State.reset.inv

/-- No program can observe the byte order: from states that agree but for it, a step ends in states that
agree but for it, or in the same fault or refusal. -/
def Obligations.ByteOrderIsUnobservable : Prop :=
  ∀ s t : State, SameButByteOrder s t → EndAlike (step s) (step t)

/-! ### Runs (70_reset_and_hazards.md): END_PC is an agreement outside the machine (D19, log 30) -/

/-- A run that is over ended with CP at END_PC. -/
def Obligations.FinishedRunStandsAtItsEnd : Prop :=
  ∀ (endPc : Word) (n : Nat) (s t : State), runUntil endPc n s = .over t → t.cp = endPc

/-- A run that faulted stopped in the state whose step faults, before END_PC, and no further step allowed
changes that: no fault is ever cleared. The spec's decision D15. -/
def Obligations.FaultedRunStaysFaulted : Prop :=
  ∀ (endPc : Word) (n k : Nat) (s t : State) (f : Fault), runUntil endPc n s = .faulted t f →
    step t = .fault f ∧ t.cp ≠ endPc ∧ runUntil endPc (n + k) s = .faulted t f

/-! ### The assembler (rule R83) -/

/-- A displacement assembled for a branch leads the taken branch to its label, and a field assembled for a J
leads the J to its target. -/
def Obligations.AssembledTargetsAreReached : Prop :=
  ∀ (s : State) (target : Word) (rs rt : Reg) (imm : BitVec 16) (dest : BitVec 26),
    (branchImm s.cp target = .ok imm → s.reg rs = s.reg rt →
      ∃ t, exec (.beq rs rt imm) s = .next t ∧ t.cp = target) ∧
    (jumpField s.cp target = .ok dest → s.cp.toNat / 4 % 2 ^ 26 ≠ 2 ^ 26 - 1 →
      ∃ t, exec (.j dest) s = .next t ∧ t.cp = target)
end

