-- ==== Sys2Proof/Laws/Encoding.lean ====
section
/-! SUPPORT. The fields of a word built in one of the three formats, and words as their bytes. -/

namespace Sys2Proof

theorem toNat_formatI (op : BitVec 6) (rs rt : Reg) (imm : BitVec 16) :
    (formatI op rs rt imm).toNat =
      op.toNat * 2 ^ 26 + rs.toNat * 2 ^ 21 + rt.toNat * 2 ^ 16 + imm.toNat := by
  have h1 := rs.isLt
  have h2 := rt.isLt
  have h3 := imm.isLt
  simp only [formatI, BitVec.toNat_append]
  rw [← Nat.shiftLeft_add_eq_or_of_lt h1, ← Nat.shiftLeft_add_eq_or_of_lt h2,
    ← Nat.shiftLeft_add_eq_or_of_lt h3]
  simp only [Nat.shiftLeft_eq]
  omega

theorem toNat_formatR (rs rt rd : Reg) (nb : BitVec 5) (ext : BitVec 6) :
    (formatR rs rt rd nb ext).toNat =
      rs.toNat * 2 ^ 21 + rt.toNat * 2 ^ 16 + rd.toNat * 2 ^ 11 + nb.toNat * 2 ^ 6 + ext.toNat := by
  have h1 := rs.isLt
  have h2 := rt.isLt
  have h3 := rd.isLt
  have h4 := nb.isLt
  have h5 := ext.isLt
  simp only [formatR, BitVec.toNat_append]
  rw [← Nat.shiftLeft_add_eq_or_of_lt h1, ← Nat.shiftLeft_add_eq_or_of_lt h2,
    ← Nat.shiftLeft_add_eq_or_of_lt h3, ← Nat.shiftLeft_add_eq_or_of_lt h4,
    ← Nat.shiftLeft_add_eq_or_of_lt h5]
  simp only [Nat.shiftLeft_eq, BitVec.toNat_ofNat]
  omega

theorem toNat_formatJ (op : BitVec 6) (dest : BitVec 26) :
    (formatJ op dest).toNat = op.toNat * 2 ^ 26 + dest.toNat := by
  have h1 := dest.isLt
  simp only [formatJ, BitVec.toNat_append]
  rw [← Nat.shiftLeft_add_eq_or_of_lt h1, Nat.shiftLeft_eq]

/-! ### Fields of a built word -/

@[simp] theorem opField_formatI (op : BitVec 6) (rs rt : Reg) (imm : BitVec 16) :
    opField (formatI op rs rt imm) = op := by
  have h0 := op.isLt
  have h1 := rs.isLt
  have h2 := rt.isLt
  have h3 := imm.isLt
  apply BitVec.eq_of_toNat_eq
  simp only [opField, BitVec.extractLsb'_toNat, toNat_formatI, Nat.shiftRight_eq_div_pow]
  omega

@[simp] theorem rsField_formatI (op : BitVec 6) (rs rt : Reg) (imm : BitVec 16) :
    rsField (formatI op rs rt imm) = rs := by
  have h0 := op.isLt
  have h1 := rs.isLt
  have h2 := rt.isLt
  have h3 := imm.isLt
  apply BitVec.eq_of_toNat_eq
  simp only [rsField, BitVec.extractLsb'_toNat, toNat_formatI, Nat.shiftRight_eq_div_pow]
  omega

@[simp] theorem rtField_formatI (op : BitVec 6) (rs rt : Reg) (imm : BitVec 16) :
    rtField (formatI op rs rt imm) = rt := by
  have h0 := op.isLt
  have h1 := rs.isLt
  have h2 := rt.isLt
  have h3 := imm.isLt
  apply BitVec.eq_of_toNat_eq
  simp only [rtField, BitVec.extractLsb'_toNat, toNat_formatI, Nat.shiftRight_eq_div_pow]
  omega

@[simp] theorem immField_formatI (op : BitVec 6) (rs rt : Reg) (imm : BitVec 16) :
    immField (formatI op rs rt imm) = imm := by
  have h0 := op.isLt
  have h1 := rs.isLt
  have h2 := rt.isLt
  have h3 := imm.isLt
  apply BitVec.eq_of_toNat_eq
  simp only [immField, BitVec.extractLsb'_toNat, toNat_formatI, Nat.shiftRight_eq_div_pow]
  omega

@[simp] theorem opField_formatR (rs rt rd : Reg) (nb : BitVec 5) (ext : BitVec 6) :
    opField (formatR rs rt rd nb ext) = 0#6 := by
  have h0 := rs.isLt
  have h1 := rt.isLt
  have h2 := rd.isLt
  have h3 := nb.isLt
  have h4 := ext.isLt
  apply BitVec.eq_of_toNat_eq
  simp only [opField, BitVec.extractLsb'_toNat, toNat_formatR, Nat.shiftRight_eq_div_pow,
    BitVec.toNat_ofNat]
  omega

@[simp] theorem rsField_formatR (rs rt rd : Reg) (nb : BitVec 5) (ext : BitVec 6) :
    rsField (formatR rs rt rd nb ext) = rs := by
  have h0 := rs.isLt
  have h1 := rt.isLt
  have h2 := rd.isLt
  have h3 := nb.isLt
  have h4 := ext.isLt
  apply BitVec.eq_of_toNat_eq
  simp only [rsField, BitVec.extractLsb'_toNat, toNat_formatR, Nat.shiftRight_eq_div_pow]
  omega

@[simp] theorem rtField_formatR (rs rt rd : Reg) (nb : BitVec 5) (ext : BitVec 6) :
    rtField (formatR rs rt rd nb ext) = rt := by
  have h0 := rs.isLt
  have h1 := rt.isLt
  have h2 := rd.isLt
  have h3 := nb.isLt
  have h4 := ext.isLt
  apply BitVec.eq_of_toNat_eq
  simp only [rtField, BitVec.extractLsb'_toNat, toNat_formatR, Nat.shiftRight_eq_div_pow]
  omega

@[simp] theorem rdField_formatR (rs rt rd : Reg) (nb : BitVec 5) (ext : BitVec 6) :
    rdField (formatR rs rt rd nb ext) = rd := by
  have h0 := rs.isLt
  have h1 := rt.isLt
  have h2 := rd.isLt
  have h3 := nb.isLt
  have h4 := ext.isLt
  apply BitVec.eq_of_toNat_eq
  simp only [rdField, BitVec.extractLsb'_toNat, toNat_formatR, Nat.shiftRight_eq_div_pow]
  omega

@[simp] theorem nbField_formatR (rs rt rd : Reg) (nb : BitVec 5) (ext : BitVec 6) :
    nbField (formatR rs rt rd nb ext) = nb := by
  have h0 := rs.isLt
  have h1 := rt.isLt
  have h2 := rd.isLt
  have h3 := nb.isLt
  have h4 := ext.isLt
  apply BitVec.eq_of_toNat_eq
  simp only [nbField, BitVec.extractLsb'_toNat, toNat_formatR, Nat.shiftRight_eq_div_pow]
  omega

@[simp] theorem extField_formatR (rs rt rd : Reg) (nb : BitVec 5) (ext : BitVec 6) :
    extField (formatR rs rt rd nb ext) = ext := by
  have h0 := rs.isLt
  have h1 := rt.isLt
  have h2 := rd.isLt
  have h3 := nb.isLt
  have h4 := ext.isLt
  apply BitVec.eq_of_toNat_eq
  simp only [extField, BitVec.extractLsb'_toNat, toNat_formatR, Nat.shiftRight_eq_div_pow]
  omega

@[simp] theorem opField_formatJ (op : BitVec 6) (dest : BitVec 26) :
    opField (formatJ op dest) = op := by
  have h0 := op.isLt
  have h1 := dest.isLt
  apply BitVec.eq_of_toNat_eq
  simp only [opField, BitVec.extractLsb'_toNat, toNat_formatJ, Nat.shiftRight_eq_div_pow]
  omega

@[simp] theorem destField_formatJ (op : BitVec 6) (dest : BitVec 26) :
    destField (formatJ op dest) = dest := by
  have h0 := op.isLt
  have h1 := dest.isLt
  apply BitVec.eq_of_toNat_eq
  simp only [destField, BitVec.extractLsb'_toNat, toNat_formatJ, Nat.shiftRight_eq_div_pow]
  omega

/-! ### A word is built from its fields -/

theorem formatI_fields (w : Word) : formatI (opField w) (rsField w) (rtField w) (immField w) = w := by
  have h := w.isLt
  apply BitVec.eq_of_toNat_eq
  rw [toNat_formatI]
  simp only [opField, rsField, rtField, immField, BitVec.extractLsb'_toNat, Nat.shiftRight_eq_div_pow]
  omega

theorem formatR_fields (w : Word) (h0 : opField w = 0#6) :
    formatR (rsField w) (rtField w) (rdField w) (nbField w) (extField w) = w := by
  have h := w.isLt
  have h1 : (opField w).toNat = 0 := by rw [h0]; rfl
  apply BitVec.eq_of_toNat_eq
  rw [toNat_formatR]
  simp only [opField, rsField, rtField, rdField, nbField, extField, BitVec.extractLsb'_toNat,
    Nat.shiftRight_eq_div_pow] at h1 ⊢
  omega

theorem formatJ_fields (w : Word) : formatJ (opField w) (destField w) = w := by
  have h := w.isLt
  apply BitVec.eq_of_toNat_eq
  rw [toNat_formatJ]
  simp only [opField, destField, BitVec.extractLsb'_toNat, Nat.shiftRight_eq_div_pow]
  omega

/-! ### Masks, field by field -/

theorem formatI_and (op op' : BitVec 6) (rs rs' rt rt' : Reg) (imm imm' : BitVec 16) :
    formatI op rs rt imm &&& formatI op' rs' rt' imm' =
      formatI (op &&& op') (rs &&& rs') (rt &&& rt') (imm &&& imm') := by
  refine (BitVec.and_append (x₁ := op ++ rs ++ rt) (y₁ := imm)).trans ?_
  rw [BitVec.and_append, BitVec.and_append, formatI]

theorem formatR_and (rs rs' rt rt' rd rd' : Reg) (nb nb' : BitVec 5) (ext ext' : BitVec 6) :
    formatR rs rt rd nb ext &&& (63#6 ++ rs' ++ rt' ++ rd' ++ nb' ++ ext' : Word) =
      formatR (rs &&& rs') (rt &&& rt') (rd &&& rd') (nb &&& nb') (ext &&& ext') := by
  refine (BitVec.and_append (x₁ := 0#6 ++ rs ++ rt ++ rd ++ nb) (y₁ := ext)).trans ?_
  rw [BitVec.and_append, BitVec.and_append, BitVec.and_append, BitVec.and_append, BitVec.zero_and, formatR]

theorem formatJ_and (op op' : BitVec 6) (dest dest' : BitVec 26) :
    formatJ op dest &&& formatJ op' dest' = formatJ (op &&& op') (dest &&& dest') :=
  BitVec.and_append

/-! ### Words and bytes -/

/-- The bytes of a word, put together again in the same order, are the word (rule R41). -/
@[simp] theorem wordOf_byteOf (bigEndian : Bool) (w : Word) :
    wordOf bigEndian (byteOf bigEndian w 0) (byteOf bigEndian w 1) (byteOf bigEndian w 2)
      (byteOf bigEndian w 3) = w := by
  have h := w.isLt
  have b (k : Nat) : (w.extractLsb' k 8).toNat < 2 ^ 8 := (w.extractLsb' k 8).isLt
  apply BitVec.eq_of_toNat_eq
  cases bigEndian <;>
    (simp only [wordOf, byteOf, if_true, if_false, Bool.false_eq_true, BitVec.toNat_append]
     rw [← Nat.shiftLeft_add_eq_or_of_lt (b _), ← Nat.shiftLeft_add_eq_or_of_lt (b _),
       ← Nat.shiftLeft_add_eq_or_of_lt (b _)]
     simp only [BitVec.extractLsb'_toNat, Nat.shiftLeft_eq, Nat.shiftRight_eq_div_pow]
     omega)

/-- Decoding the four bytes of a word is decoding the word, whatever the byte order. -/
theorem decodeBytes_bytesOf (bigEndian : Bool) (w : Word) (rest : List Byte) :
    decodeBytes bigEndian (bytesOf bigEndian w ++ rest) =
      match decode w with
      | .ok i => .ok (i, rest)
      | .error e => .error e := by
  cases h : decode w <;> simp [decodeBytes, bytesOf, h]

/-- What `selected` can answer (rule R74). -/
theorem selected_ok_iff {w : Word} {z : Bool} {i k : Instr} :
    selected w z i = .ok k ↔ z = true ∧ i = k := by
  cases z <;> simp [selected]

end Sys2Proof
end

