-- ==== Sys2Proof/Laws/State.lean ====
section
/-! SUPPORT. Each update of the state, field by field, and the registers read after each update. -/

namespace Sys2Proof.Machine

variable (s : State) (r q : Reg) (a t v : Word)

/-! ### Fields after `goto` and `advance` -/

@[simp] theorem goto_cp : (s.goto t).cp = t := rfl
@[simp] theorem goto_regs : (s.goto t).regs = s.regs := rfl
@[simp] theorem goto_mem : (s.goto t).mem = s.mem := rfl
@[simp] theorem goto_params : (s.goto t).params = s.params := rfl
@[simp] theorem advance_cp : s.advance.cp = s.npc := rfl
@[simp] theorem advance_regs : s.advance.regs = s.regs := rfl
@[simp] theorem advance_mem : s.advance.mem = s.mem := rfl
@[simp] theorem advance_params : s.advance.params = s.params := rfl

/-! ### Fields after `setReg` -/

@[simp] theorem setReg_cp : (s.setReg r v).cp = s.cp := by unfold State.setReg; split <;> rfl
@[simp] theorem setReg_mem : (s.setReg r v).mem = s.mem := by unfold State.setReg; split <;> rfl
@[simp] theorem setReg_params : (s.setReg r v).params = s.params := by unfold State.setReg; split <;> rfl

/-! ### Fields after `setWord` -/

@[simp] theorem setWord_cp : (s.setWord a v).cp = s.cp := rfl
@[simp] theorem setWord_regs : (s.setWord a v).regs = s.regs := rfl
@[simp] theorem setWord_mem :
    (s.setWord a v).mem = s.mem.writeWord s.params.bigEndian a.toNat v := rfl
@[simp] theorem setWord_params : (s.setWord a v).params = s.params := rfl

/-! ### Fields of a starting state -/

variable (p : Params) (m : Memory)

@[simp] theorem start_cp : (State.start p a m).cp = a := rfl
@[simp] theorem start_mem : (State.start p a m).mem = m := rfl
@[simp] theorem start_params : (State.start p a m).params = p := rfl

/-! ### The next instruction's address -/

theorem npc_def : s.npc = s.cp + 4 := rfl
@[simp] theorem npc_setReg : (s.setReg r v).npc = s.npc := by simp [State.npc]
@[simp] theorem npc_setWord : (s.setWord a v).npc = s.npc := rfl

/-! ### Registers -/

/-- R0 reads as zero in every state (rule R21). -/
@[simp] theorem reg_zero : s.reg 0#5 = 0#32 := by simp [State.reg]

/-- A write to R0 changes nothing (rule R22). -/
@[simp] theorem setReg_zero : s.setReg 0#5 v = s := by simp [State.setReg]

@[simp] theorem reg_goto : (s.goto t).reg r = s.reg r := rfl
@[simp] theorem reg_advance : s.advance.reg r = s.reg r := rfl
@[simp] theorem reg_setWord : (s.setWord a v).reg r = s.reg r := rfl

/-- Reading a register after a write: the value written, if it is that register and not R0. -/
theorem reg_setReg : (s.setReg r v).reg q = if q = r ∧ q ≠ 0 then v else s.reg q := by
  by_cases hr : r = 0
  · subst hr
    rw [if_neg (fun h => h.2 h.1)]
    exact congrArg (State.reg · q) (setReg_zero s v)
  · by_cases hq : q = 0
    · subst hq
      simp
    · have hr' : r.toNat ≠ 0 := fun h => hr (BitVec.eq_of_toNat_eq h)
      have hq' : q.toNat ≠ 0 := fun h => hq (BitVec.eq_of_toNat_eq h)
      have hi : r.toNat - 1 = q.toNat - 1 ↔ q = r := by
        rw [← BitVec.toNat_inj]; omega
      simp only [State.reg, State.setReg, hr, hq, if_false, Vector.getElem_set, hi, ne_eq,
        not_false_eq_true, and_true]

end Sys2Proof.Machine
end

