-- ==== Sys2Proof/Laws/Operands.lean ====
section
/-! SUPPORT. The operand forms, range test and conditions, over the numbers they stand for. -/

namespace Sys2Proof.Machine

/-! ### Immediates -/

/-- SIMM has the signed value of the 16-bit immediate (rule R8). -/
@[simp] theorem toInt_simm (imm : BitVec 16) : (simm imm).toInt = imm.toInt := by
  rw [simm, BitVec.toInt_signExtend_of_le (by decide)]

/-- ZIMM has the unsigned value of the 16-bit immediate (rule R8). -/
@[simp] theorem toNat_zimm (imm : BitVec 16) : (zimm imm).toNat = imm.toNat := by
  have h := imm.isLt
  rw [zimm, BitVec.zeroExtend, BitVec.toNat_setWidth]
  omega

/-- IMM placed in the high half is IMM times 2^16 (rule R117). -/
@[simp] theorem toNat_upperImm (imm : BitVec 16) : (upperImm imm).toNat = imm.toNat * 2 ^ 16 := by
  have h := imm.isLt
  rw [upperImm, BitVec.toNat_append, ← Nat.shiftLeft_add_eq_or_of_lt (0#16).isLt, Nat.shiftLeft_eq]
  simp

/-! ### Targets and addresses -/

/-- Adding SIMM to an address adds the signed value of the immediate, modulo 2^32. -/
theorem add_simm_eq_ofInt (a : Word) (imm : BitVec 16) :
    a + simm imm = BitVec.ofInt 32 (a.toNat + imm.toInt) := by
  rw [← toInt_simm, BitVec.ofInt_add, BitVec.ofInt_natCast, BitVec.ofInt_toInt, BitVec.ofNat_toNat,
    BitVec.setWidth_eq]

/-- ADBRANCH over the numbers (rule R10). -/
theorem adbranch_eq_ofInt (s : State) (imm : BitVec 16) :
    s.adbranch imm = BitVec.ofInt 32 (s.cp.toNat + 4 + imm.toInt) := by
  rw [← toInt_simm, BitVec.ofInt_add, BitVec.ofInt_add, BitVec.ofInt_natCast, BitVec.ofInt_toInt,
    BitVec.ofNat_toNat, BitVec.setWidth_eq]
  rfl

/-- The target of J over the numbers (rule R162). -/
theorem toNat_jumpTarget (s : State) (dest : BitVec 26) :
    (s.jumpTarget dest).toNat = s.cp.toNat / 2 ^ 28 * 2 ^ 28 + dest.toNat * 4 := by
  have h := s.cp.isLt
  rw [State.jumpTarget, BitVec.toNat_append, BitVec.toNat_append,
    ← Nat.shiftLeft_add_eq_or_of_lt dest.isLt, ← Nat.shiftLeft_add_eq_or_of_lt (0#2).isLt]
  simp only [BitVec.extractLsb'_toNat, Nat.shiftLeft_eq, Nat.shiftRight_eq_div_pow, BitVec.toNat_ofNat]
  omega

/-- The last word of a region over the numbers (rule R161). -/
theorem inLastWordOfRegion_iff (s : State) :
    s.inLastWordOfRegion = true ↔ s.cp.toNat / 4 % 2 ^ 26 = 2 ^ 26 - 1 := by
  rw [State.inLastWordOfRegion, beq_iff_eq, ← BitVec.toNat_inj, BitVec.extractLsb'_toNat,
    Nat.shiftRight_eq_div_pow]
  rfl

/-- An address is aligned when it is a multiple of 4 (rule R40). -/
theorem aligned_iff (a : Word) : aligned a = true ↔ a.toNat % 4 = 0 := by simp [aligned]

theorem aligned_eq_false_iff (a : Word) : aligned a = false ↔ a.toNat % 4 ≠ 0 := by simp [aligned]

/-! ### The range test and the conditions -/

theorem fitsSigned_iff (x : Int) : fitsSigned x = true ↔ -2 ^ 31 ≤ x ∧ x ≤ 2 ^ 31 - 1 := by
  simp [fitsSigned]

/-- A number in the signed range is the signed value of the word it is narrowed to (rule R107). -/
theorem toInt_ofInt_of_fitsSigned {x : Int} (h : fitsSigned x = true) : (BitVec.ofInt 32 x).toInt = x := by
  rw [fitsSigned_iff] at h
  rw [BitVec.toInt_ofInt, Int.bmod_def]
  omega

theorem boolWord_decide (p : Prop) [Decidable p] : boolWord (decide p) = if p then 1 else 0 := by
  simp [boolWord]

/-- The sign conditions over the unsigned value: bit 31 is the sign (rules R143 to R147). -/
theorem geZero_eq (a : Word) : geZero a = decide (a.toNat < 2 ^ 31) := by
  have h := a.isLt
  rw [geZero, decide_eq_decide, BitVec.toInt_eq_toNat_cond]
  split <;> omega

theorem ltZero_eq (a : Word) : ltZero a = decide (2 ^ 31 ≤ a.toNat) := by
  have h := a.isLt
  rw [ltZero, decide_eq_decide, BitVec.toInt_eq_toNat_cond]
  split <;> omega

theorem gtZero_eq (a : Word) : gtZero a = decide (0 < a.toNat ∧ a.toNat < 2 ^ 31) := by
  have h := a.isLt
  rw [gtZero, decide_eq_decide, BitVec.toInt_eq_toNat_cond]
  split <;> omega

theorem leZero_eq (a : Word) : leZero a = decide (a.toNat = 0 ∨ 2 ^ 31 ≤ a.toNat) := by
  have h := a.isLt
  rw [leZero, decide_eq_decide, BitVec.toInt_eq_toNat_cond]
  split <;> omega

end Sys2Proof.Machine
end

