-- ==== Sys2Proof/Laws/Memory.lean ====
section
/-! SUPPORT. Memory: reading after writing, and the canonical form that every write keeps. -/

namespace Sys2Proof.Machine

/-! ### Bytes -/

/-- Reading a byte after a write: the byte written there, and every other byte as before. -/
theorem read_write (m : Memory) (a b : Nat) (v : Byte) :
    (m.write a v).read b = if b = a then some v else m.read b := by
  induction m with
  | nil => simp [Memory.write, Memory.read, eq_comm]
  | cons c rest ih =>
    unfold Memory.write
    by_cases h1 : a < c.1
    · rw [if_pos h1]
      simp only [Memory.read]
      by_cases h2 : a = b
      · simp [h2]
      · simp [h2, Ne.symm h2]
    · by_cases h2 : a = c.1
      · rw [if_neg h1, if_pos h2]
        simp only [Memory.read, ← h2, eq_comm]
        by_cases h3 : a = b <;> simp [h3]
      · rw [if_neg h1, if_neg h2]
        simp only [Memory.read, ih]
        by_cases h3 : c.1 = b
        · have h4 : b ≠ a := fun h => h2 (h ▸ h3.symm)
          simp [h3, h4]
        · simp [h3]

/-- An entry after a write is the one written or an old one. -/
theorem mem_write {m : Memory} {a : Nat} {v : Byte} {c : Host.Cell} (h : c ∈ m.write a v) :
    c = (a, v) ∨ c ∈ m := by
  induction m with
  | nil => simpa [Memory.write] using h
  | cons d rest ih =>
    unfold Memory.write at h
    split at h
    · simpa using h
    · split at h
      · rcases List.mem_cons.1 h with h | h
        · exact .inl h
        · exact .inr (List.mem_cons_of_mem _ h)
      · rcases List.mem_cons.1 h with h | h
        · exact .inr (h ▸ List.mem_cons_self)
        · exact (ih h).imp_right (List.mem_cons_of_mem _)

/-- A write keeps the addresses strictly rising. -/
theorem pairwise_write {m : Memory} (a : Nat) (v : Byte) (h : m.Pairwise (fun c d => c.1 < d.1)) :
    (m.write a v).Pairwise (fun c d => c.1 < d.1) := by
  induction m with
  | nil => simp [Memory.write]
  | cons c rest ih =>
    obtain ⟨hc, hrest⟩ := List.pairwise_cons.1 h
    unfold Memory.write
    split
    · rename_i ha
      refine List.pairwise_cons.2 ⟨fun d hd => ?_, h⟩
      rcases List.mem_cons.1 hd with hd | hd
      · exact hd ▸ ha
      · exact Nat.lt_trans ha (hc d hd)
    · split
      · rename_i ha
        exact List.pairwise_cons.2 ⟨fun d hd => ha ▸ hc d hd, hrest⟩
      · rename_i h1 h2
        refine List.pairwise_cons.2 ⟨fun d hd => ?_, ih hrest⟩
        rcases mem_write hd with hd | hd
        · subst hd
          show c.1 < a
          omega
        · exact hc d hd

/-- A write inside the address space keeps the canonical form. -/
theorem wf_write {m : Memory} {a : Nat} (v : Byte) (h : m.wf) (ha : a < 2 ^ 32) : (m.write a v).wf := by
  refine ⟨pairwise_write a v h.1, fun c hc => ?_⟩
  rcases mem_write hc with hc | hc
  · exact hc ▸ ha
  · exact h.2 c hc

/-- Memory with nothing listed is in canonical form: the reset state's memory. -/
theorem wf_reset : State.reset.mem.wf := by decide

/-! ### Words -/

/-- Storing a word at an aligned address keeps the canonical form. -/
theorem wf_writeWord {m : Memory} {a : Word} (bigEndian : Bool) (w : Word) (h : m.wf)
    (ha : aligned a = true) : (m.writeWord bigEndian a.toNat w).wf := by
  have hlt := a.isLt
  have hal : a.toNat % 4 = 0 := by simpa [aligned] using ha
  unfold Memory.writeWord
  exact wf_write _ (wf_write _ (wf_write _ (wf_write _ h (by omega)) (by omega)) (by omega)) (by omega)

/-- Placing words from an aligned address on keeps the canonical form, also past the top of the space. -/
theorem wf_writeWords {m : Memory} {a : Word} (bigEndian : Bool) (ws : List Word) (h : m.wf)
    (ha : aligned a = true) : (m.writeWords bigEndian a ws).wf := by
  induction ws generalizing a with
  | nil => exact h
  | cons w ws ih =>
    refine wf_writeWord bigEndian w (ih ?_) ha
    have h4 : (a + 4).toNat = (a.toNat + 4) % 2 ^ 32 := BitVec.toNat_add a 4
    simp only [aligned, beq_iff_eq] at ha ⊢
    omega

/-- An entry after a word is stored is an old one or one of the word's four bytes. -/
theorem mem_writeWord {m : Memory} {bigEndian : Bool} {a : Nat} {w : Word} {c : Host.Cell}
    (h : c ∈ m.writeWord bigEndian a w) : c ∈ m ∨ (a ≤ c.1 ∧ c.1 < a + 4) := by
  unfold Memory.writeWord at h
  rcases mem_write h with h | h
  · exact .inr (by subst h; simp)
  rcases mem_write h with h | h
  · exact .inr (by subst h; simp)
  rcases mem_write h with h | h
  · exact .inr (by subst h; simp)
  rcases mem_write h with h | h
  · exact .inr (by subst h; simp)
  · exact .inl h

/-- Reading a byte after a word is stored. -/
theorem read_writeWord (m : Memory) (bigEndian : Bool) (a b : Nat) (w : Word) :
    (m.writeWord bigEndian a w).read b =
      if a ≤ b ∧ b < a + 4 then some (byteOf bigEndian w (b - a)) else m.read b := by
  simp only [Memory.writeWord, read_write]
  by_cases h3 : b = a + 3
  · subst h3; simp
  by_cases h2 : b = a + 2
  · subst h2; simp
  by_cases h1 : b = a + 1
  · subst h1; simp
  by_cases h0 : b = a
  · subst h0; simp
  have h : ¬(a ≤ b ∧ b < a + 4) := by omega
  simp [h0, h1, h2, h3, h]

/-! ### Bytes and words of a state -/

section
variable (s : State) (r : Reg) (a t v : Word) (b : Nat)

@[simp] theorem byteAt_goto : (s.goto t).byteAt b = s.byteAt b := rfl
@[simp] theorem byteAt_advance : s.advance.byteAt b = s.byteAt b := rfl
@[simp] theorem byteAt_setReg : (s.setReg r v).byteAt b = s.byteAt b := by simp [State.byteAt]
@[simp] theorem wordAt_goto : (s.goto t).wordAt a = s.wordAt a := rfl
@[simp] theorem wordAt_advance : s.advance.wordAt a = s.wordAt a := rfl
@[simp] theorem wordAt_setReg : (s.setReg r v).wordAt a = s.wordAt a := by simp [State.wordAt]

/-- A byte read after a word is stored: the word's own bytes, and every other byte as before. -/
theorem byteAt_setWord : (s.setWord a v).byteAt b =
    if a.toNat ≤ b ∧ b < a.toNat + 4 then byteOf s.params.bigEndian v (b - a.toNat) else s.byteAt b := by
  by_cases h : a.toNat ≤ b ∧ b < a.toNat + 4
  · simp only [State.byteAt, setWord_mem, read_writeWord, if_pos h]
  · simp only [State.byteAt, setWord_mem, setWord_params, read_writeWord, if_neg h]

/-- The word stored is the word read (rules R49, R52). -/
@[simp] theorem wordAt_setWord_self : (s.setWord a v).wordAt a = v := by
  have h0 : ¬(a.toNat + 4 ≤ a.toNat) := by omega
  simp [State.wordAt, byteAt_setWord]

/-- A store changes no other word (rule R45). -/
theorem wordAt_setWord_of_ne {a c : Word} (ha : aligned a = true) (hc : aligned c = true) (h : c ≠ a) :
    (s.setWord a v).wordAt c = s.wordAt c := by
  have ha' : a.toNat % 4 = 0 := by simpa [aligned] using ha
  have hc' : c.toNat % 4 = 0 := by simpa [aligned] using hc
  have hne : c.toNat ≠ a.toNat := fun e => h (BitVec.eq_of_toNat_eq e)
  have h0 : ¬(a.toNat ≤ c.toNat ∧ c.toNat < a.toNat + 4) := by omega
  have h1 : ¬(a.toNat ≤ c.toNat + 1 ∧ c.toNat + 1 < a.toNat + 4) := by omega
  have h2 : ¬(a.toNat ≤ c.toNat + 2 ∧ c.toNat + 2 < a.toNat + 4) := by omega
  have h3 : ¬(a.toNat ≤ c.toNat + 3 ∧ c.toNat + 3 < a.toNat + 4) := by omega
  simp only [State.wordAt, byteAt_setWord, setWord_params, if_neg h0, if_neg h1, if_neg h2, if_neg h3]

/-- A word none of whose bytes has been written is the free word of `InitMem`, whatever the byte order
(rules R33, R42). -/
theorem wordAt_of_unwritten {a : Word} (ha : aligned a = true) (h : ∀ k < 4, s.mem.read (a.toNat + k) = none) :
    s.wordAt a = Config.initMem a := by
  have ha' : a.toNat % 4 = 0 := by simpa [aligned] using ha
  have hb (k : Nat) (hk : k < 4) :
      s.byteAt (a.toNat + k) = byteOf s.params.bigEndian (Config.initMem a) k := by
    have h1 : (a.toNat + k) / 4 * 4 = a.toNat := by omega
    have h2 : (a.toNat + k) % 4 = k := by omega
    rw [State.byteAt, h k hk]
    simp only [unwrittenByte, h1, h2, BitVec.ofNat_toNat, BitVec.setWidth_eq]
  have h0 := hb 0 (by decide)
  rw [Nat.add_zero] at h0
  rw [State.wordAt, h0, hb 1 (by decide), hb 2 (by decide), hb 3 (by decide), wordOf_byteOf]

end

end Sys2Proof.Machine
end

