-- ==== Sys2Proof/Laws/Ops.lean ====
section
/-! SUPPORT. What each shared operation can do, said once. -/

namespace Sys2Proof.Machine

/-! ### Accesses -/

/-- An access passes its tests exactly when its address is aligned and mapped (rules R44, R45). -/
theorem accessCheck_eq_none {s : State} {k : Access} {a : Word} :
    accessCheck s k a = none ↔ aligned a = true ∧ mappedIn s.params a = true := by
  unfold accessCheck
  cases aligned a <;> cases mappedIn s.params a <;> simp

/-- The fault an access raises: alignment is tested first (rule R208). -/
theorem accessCheck_eq_some {s : State} {k : Access} {a : Word} {f : Fault} :
    accessCheck s k a = some f ↔
      (aligned a = false ∧ f = .addressError a k) ∨
        (aligned a = true ∧ mappedIn s.params a = false ∧ f = .accessFault a k) := by
  unfold accessCheck
  cases aligned a <;> cases mappedIn s.params a <;> simp [eq_comm]

/-- What a read answers (rule R44). -/
theorem memRead_ok {s : State} {k : Access} {a w : Word} :
    memRead s k a = .ok w ↔ aligned a = true ∧ mappedIn s.params a = true ∧ w = s.wordAt a := by
  unfold memRead
  cases h : accessCheck s k a with
  | none => have := accessCheck_eq_none.1 h; simp [this, eq_comm]
  | some f =>
    have : ¬(aligned a = true ∧ mappedIn s.params a = true) := fun h' => by
      rw [accessCheck_eq_none.2 h'] at h; cases h
    simp only [reduceCtorEq, false_iff]
    exact fun h' => this ⟨h'.1, h'.2.1⟩

theorem memRead_error {s : State} {k : Access} {a : Word} {f : Fault} :
    memRead s k a = .error f ↔ accessCheck s k a = some f := by
  unfold memRead
  cases accessCheck s k a <;> simp

/-- What a write answers (rule R45). -/
theorem memWrite_ok {s t : State} {a v : Word} :
    memWrite s a v = .ok t ↔
      aligned a = true ∧ mappedIn s.params a = true ∧ t = s.setWord a v := by
  unfold memWrite
  cases h : accessCheck s .store a with
  | none => have := accessCheck_eq_none.1 h; simp [this, eq_comm]
  | some f =>
    have : ¬(aligned a = true ∧ mappedIn s.params a = true) := fun h' => by
      rw [accessCheck_eq_none.2 h'] at h; cases h
    simp only [reduceCtorEq, false_iff]
    exact fun h' => this ⟨h'.1, h'.2.1⟩

theorem memWrite_error {s : State} {a v : Word} {f : Fault} :
    memWrite s a v = .error f ↔ accessCheck s .store a = some f := by
  unfold memWrite
  cases accessCheck s .store a <;> simp

/-- What a fetch and its decoding answer when they answer an instruction (rule R25). -/
theorem fetchInstr_ok {s : State} {i : Instr} :
    fetchInstr s = .ok i ↔
      aligned s.cp = true ∧ mappedIn s.params s.cp = true ∧ decode (s.wordAt s.cp) = .ok i := by
  unfold fetchInstr fetchWord
  cases h : memRead s .fetch s.cp with
  | error f =>
    simp only [reduceCtorEq, false_iff]
    intro h'
    have h2 := (memRead_ok (k := .fetch)).2 ⟨h'.1, h'.2.1, rfl⟩
    rw [h] at h2
    cases h2
  | ok w =>
    obtain ⟨h1, h2, rfl⟩ := memRead_ok.1 h
    simp only [h1, h2, true_and]
    cases decode (s.wordAt s.cp) <;> simp

/-- A step that does not end in the fetch is the execution of the instruction at CP. -/
theorem step_of_fetchInstr {s : State} {i : Instr} (h : fetchInstr s = .ok i) : step s = exec i s := by
  simp [step, h]

/-- A step answers a next state only through an instruction fetched. -/
theorem step_next {s t : State} (h : step s = .next t) :
    ∃ i, fetchInstr s = .ok i ∧ exec i s = .next t := by
  unfold step at h
  cases hf : fetchInstr s with
  | error f => rw [hf] at h; cases h
  | ok i => rw [hf] at h; exact ⟨i, rfl, h⟩

/-! ### How an instruction ends -/

/-- Writing a register and going on does just that. -/
theorem computes_writeBack (s : State) (d : Reg) (v : Word) :
    Computes s (s.setReg d v).advance d v := by
  refine ⟨by simp [npc_def], fun r => ?_, fun a => by simp, by simp⟩
  rw [reg_advance, reg_setReg]

/-- The same without CP. -/
theorem writesOnly_writeBack (s : State) (d : Reg) (v : Word) : WritesOnly s (s.setReg d v).advance d v :=
  (computes_writeBack s d v).2

/-- What an exact signed result does: written when it fits, else an overflow (rule R107). -/
theorem writeSigned_cases (i : Instr) (s : State) (d : Reg) (x : Int) :
    (fitsSigned x = true ∧ writeSigned i s d x = .next (s.setReg d (BitVec.ofInt 32 x)).advance) ∨
      (fitsSigned x = false ∧ writeSigned i s d x = .fault (.integerOverflow (encode i))) := by
  unfold writeSigned
  cases h : fitsSigned x <;> simp [writeBack, raise]

/-- What a branch does. -/
theorem jumpsTo_branchIf (cond : Bool) (imm : BitVec 16) (s : State) :
    ∃ t, branchIf cond imm s = .next t ∧
      JumpsTo s t (if cond then s.adbranch imm else s.npc) :=
  ⟨_, rfl, rfl, fun _ => rfl, fun _ => rfl, rfl⟩

/-- What linking and jumping does. -/
theorem linksAndJumpsTo_goto (s : State) (d : Reg) (t : Word) :
    LinksAndJumpsTo s ((s.setReg d s.npc).goto t) d t := by
  refine ⟨rfl, fun r => ?_, fun a => by simp, by simp⟩
  rw [reg_goto, reg_setReg, npc_def]

/-- What a store does to memory. -/
theorem storesWord_setWord (s : State) (a v : Word) : StoresWord s (s.setWord a v).advance a v := by
  refine ⟨by simp, fun b hb => ?_⟩
  have h : ¬(a.toNat ≤ b ∧ b < a.toNat + 4) := by omega
  rw [byteAt_advance, byteAt_setWord, if_neg h]

/-! ### The invariant of memory -/

/-- Only memory and the parameters enter the invariant. -/
theorem inv_of_same {s t : State} (hm : t.mem = s.mem) (hp : t.params = s.params) (h : s.inv) : t.inv := by
  unfold State.inv at *
  rw [hm, hp]
  exact h

/-- Storing a word at an aligned mapped address keeps the invariant. -/
theorem inv_setWord {s : State} {a v : Word} (h : s.inv) (ha : aligned a = true)
    (hm : mappedIn s.params a = true) : (s.setWord a v).inv := by
  refine ⟨wf_writeWord _ _ h.1 ha, fun c hc => ?_⟩
  rcases mem_writeWord hc with hc | hc
  · exact h.2 c hc
  · have ha' : a.toNat % 4 = 0 := by simpa [aligned] using ha
    have e : c.1 / 4 * 4 = a.toNat := by omega
    rw [e, BitVec.ofNat_toNat, BitVec.setWidth_eq]
    exact hm

end Sys2Proof.Machine
end

