-- ==== Sys2Proof/Laws/Exec.lean ====
section
/-! SUPPORT. What an instruction can do when it completes, said once for all of them. -/

namespace Sys2Proof.Machine

/-- A store that completes had an aligned mapped address, and wrote the word there. -/
theorem execSw_next {s t : State} {rt rs : Reg} {imm : BitVec 16} (h : execSw rt imm rs s = .next t) :
    aligned (s.effectiveAddress rs imm) = true ∧
      mappedIn s.params (s.effectiveAddress rs imm) = true ∧
      t = (s.setWord (s.effectiveAddress rs imm) (s.reg rt)).advance := by
  unfold execSw at h
  split at h
  · cases h
  · rename_i u hu
    obtain ⟨h1, h2, rfl⟩ := memWrite_ok.1 hu
    cases h
    exact ⟨h1, h2, rfl⟩

/-- An exact signed result that was written left a register and CP changed. -/
theorem writeSigned_next {i : Instr} {s t : State} {d : Reg} {x : Int} (h : writeSigned i s d x = .next t) :
    ∃ v target, t = (s.setReg d v).goto target := by
  rcases writeSigned_cases i s d x with ⟨_, e⟩ | ⟨_, e⟩ <;> rw [e] at h <;> cases h
  exact ⟨_, _, rfl⟩

/-- Every instruction that completes wrote its destination register and CP, or CP alone, or was a SW that
wrote one word and went on. -/
theorem exec_next_cases {i : Instr} {s t : State} (h : exec i s = .next t) :
    (∃ d v target, i.destination = some d ∧ t = (s.setReg d v).goto target) ∨
      (i.destination = none ∧ ∃ target, t = s.goto target) ∨
      (∃ rt imm rs, i = .sw rt imm rs ∧ aligned (s.effectiveAddress rs imm) = true ∧
        mappedIn s.params (s.effectiveAddress rs imm) = true ∧
        t = (s.setWord (s.effectiveAddress rs imm) (s.reg rt)).advance) := by
  cases i
  case add => obtain ⟨v, c, h⟩ := writeSigned_next h; exact .inl ⟨_, v, c, rfl, h⟩
  case addi => obtain ⟨v, c, h⟩ := writeSigned_next h; exact .inl ⟨_, v, c, rfl, h⟩
  case sub => obtain ⟨v, c, h⟩ := writeSigned_next h; exact .inl ⟨_, v, c, rfl, h⟩
  case sw rt imm rs => exact .inr (.inr ⟨rt, imm, rs, rfl, execSw_next h⟩)
  case lw =>
    simp only [exec, execLw] at h
    split at h <;> cases h
    exact .inl ⟨_, _, _, rfl, rfl⟩
  case j =>
    simp only [exec, execJ] at h
    split at h <;> cases h
    exact .inr (.inl ⟨rfl, _, rfl⟩)
  case jal =>
    simp only [exec, execJal] at h
    split at h <;> cases h
    exact .inl ⟨_, _, _, rfl, rfl⟩
  case bgezal =>
    simp only [exec, execBgezal] at h
    split at h <;> cases h
    exact .inl ⟨_, _, _, rfl, rfl⟩
  case bltzal =>
    simp only [exec, execBltzal] at h
    split at h <;> cases h
    exact .inl ⟨_, _, _, rfl, rfl⟩
  all_goals
    cases h
    first
      | exact .inl ⟨_, _, _, rfl, rfl⟩
      | exact .inr (.inl ⟨rfl, _, rfl⟩)

end Sys2Proof.Machine
end

