-- ==== Sys2Proof/Laws/PerInstr.lean ====
section
/-! SUPPORT. Facts about every instruction, one lemma per constructor.
`TableRow`: the word of a well-formed instruction belongs to its own row of the opcode table. -/

namespace Sys2Proof

/-- The word encoded for `i` has the bits that the row of `i`'s mnemonic fixes (rule R70). -/
def Laws.TableRow.Statement (i : Instr) : Prop :=
  i.wellFormed = true → ∃ row ∈ opcodeTable, row.mnemonic = i.mnemonic ∧ row.holds (encode i) = true

/-! ### The seven masks of the table, each over the format it is used with -/

theorem reg_mask_all (r : Reg) : r &&& 31#5 = r := BitVec.and_allOnes
theorem op_mask_all (op : BitVec 6) : op &&& 63#6 = op := BitVec.and_allOnes
theorem field_mask_none {w : Nat} (x : BitVec w) : x &&& 0#w = 0#w := BitVec.and_zero

theorem formatR_mask_FC0007FF (rs rt rd : Reg) (nb : BitVec 5) (ext : BitVec 6) :
    formatR rs rt rd nb ext &&& 0xFC0007FF = formatR 0#5 0#5 0#5 nb ext := by
  rw [show (0xFC0007FF : Word) = 63#6 ++ 0#5 ++ 0#5 ++ 0#5 ++ 31#5 ++ 63#6 from by decide,
    formatR_and, field_mask_none rs, field_mask_none rt, field_mask_none rd, reg_mask_all nb, op_mask_all ext]

theorem formatI_mask_FC000000 (op : BitVec 6) (rs rt : Reg) (imm : BitVec 16) :
    formatI op rs rt imm &&& 0xFC000000 = formatI op 0#5 0#5 0#16 := by
  rw [show (0xFC000000 : Word) = formatI 63#6 0#5 0#5 0#16 from by decide,
    formatI_and, op_mask_all op, field_mask_none rs, field_mask_none rt, field_mask_none imm]

theorem formatI_mask_FC1F0000 (op : BitVec 6) (rs rt : Reg) (imm : BitVec 16) :
    formatI op rs rt imm &&& 0xFC1F0000 = formatI op 0#5 rt 0#16 := by
  rw [show (0xFC1F0000 : Word) = formatI 63#6 0#5 31#5 0#16 from by decide,
    formatI_and, op_mask_all op, field_mask_none rs, reg_mask_all rt, field_mask_none imm]

theorem formatJ_mask_FC000000 (op : BitVec 6) (dest : BitVec 26) :
    formatJ op dest &&& 0xFC000000 = formatJ op 0#26 := by
  rw [show (0xFC000000 : Word) = formatJ 63#6 0#26 from by decide,
    formatJ_and, op_mask_all op, field_mask_none dest]

theorem formatR_mask_FC1F07FF (rs rt rd : Reg) (nb : BitVec 5) (ext : BitVec 6) :
    formatR rs rt rd nb ext &&& 0xFC1F07FF = formatR 0#5 rt 0#5 nb ext := by
  rw [show (0xFC1F07FF : Word) = 63#6 ++ 0#5 ++ 31#5 ++ 0#5 ++ 31#5 ++ 63#6 from by decide,
    formatR_and, field_mask_none rs, reg_mask_all rt, field_mask_none rd, reg_mask_all nb, op_mask_all ext]

theorem formatR_mask_FC1FFFFF (rs rt rd : Reg) (nb : BitVec 5) (ext : BitVec 6) :
    formatR rs rt rd nb ext &&& 0xFC1FFFFF = formatR 0#5 rt rd nb ext := by
  rw [show (0xFC1FFFFF : Word) = 63#6 ++ 0#5 ++ 31#5 ++ 31#5 ++ 31#5 ++ 63#6 from by decide,
    formatR_and, field_mask_none rs, reg_mask_all rt, reg_mask_all rd, reg_mask_all nb, op_mask_all ext]

theorem formatI_mask_FFE00000 (op : BitVec 6) (rs rt : Reg) (imm : BitVec 16) :
    formatI op rs rt imm &&& 0xFFE00000 = formatI op rs 0#5 0#16 := by
  rw [show (0xFFE00000 : Word) = formatI 63#6 31#5 0#5 0#16 from by decide,
    formatI_and, op_mask_all op, reg_mask_all rs, field_mask_none rt, field_mask_none imm]

theorem formatR_mask_FFE0003F (rs rt rd : Reg) (nb : BitVec 5) (ext : BitVec 6) :
    formatR rs rt rd nb ext &&& 0xFFE0003F = formatR rs 0#5 0#5 0#5 ext := by
  rw [show (0xFFE0003F : Word) = 63#6 ++ 31#5 ++ 0#5 ++ 0#5 ++ 0#5 ++ 63#6 from by decide,
    formatR_and, reg_mask_all rs, field_mask_none rt, field_mask_none rd, field_mask_none nb, op_mask_all ext]

namespace Laws.TableRow

theorem add (rd rs rt : Reg) : Statement (.add rd rs rt) := fun _ =>
  ⟨⟨"ADD", 0x00000020, 0xFC0007FF⟩, by decide, rfl, by
    simp only [OpcodeRow.holds, encode, formatR_mask_FC0007FF]; decide⟩

theorem addi (rt rs : Reg) (imm : BitVec 16) : Statement (.addi rt rs imm) := fun _ =>
  ⟨⟨"ADDI", 0x20000000, 0xFC000000⟩, by decide, rfl, by
    simp only [OpcodeRow.holds, encode, formatI_mask_FC000000]; decide⟩

theorem addiu (rt rs : Reg) (imm : BitVec 16) : Statement (.addiu rt rs imm) := fun _ =>
  ⟨⟨"ADDIU", 0x24000000, 0xFC000000⟩, by decide, rfl, by
    simp only [OpcodeRow.holds, encode, formatI_mask_FC000000]; decide⟩

theorem addu (rd rs rt : Reg) : Statement (.addu rd rs rt) := fun _ =>
  ⟨⟨"ADDU", 0x00000021, 0xFC0007FF⟩, by decide, rfl, by
    simp only [OpcodeRow.holds, encode, formatR_mask_FC0007FF]; decide⟩

theorem and (rd rs rt : Reg) : Statement (.and rd rs rt) := fun _ =>
  ⟨⟨"AND", 0x00000024, 0xFC0007FF⟩, by decide, rfl, by
    simp only [OpcodeRow.holds, encode, formatR_mask_FC0007FF]; decide⟩

theorem andi (rt rs : Reg) (imm : BitVec 16) : Statement (.andi rt rs imm) := fun _ =>
  ⟨⟨"ANDI", 0x30000000, 0xFC000000⟩, by decide, rfl, by
    simp only [OpcodeRow.holds, encode, formatI_mask_FC000000]; decide⟩

theorem beq (rs rt : Reg) (imm : BitVec 16) : Statement (.beq rs rt imm) := fun _ =>
  ⟨⟨"BEQ", 0x10000000, 0xFC000000⟩, by decide, rfl, by
    simp only [OpcodeRow.holds, encode, formatI_mask_FC000000]; decide⟩

theorem bgez (rs : Reg) (imm : BitVec 16) : Statement (.bgez rs imm) := fun _ =>
  ⟨⟨"BGEZ", 0x04010000, 0xFC1F0000⟩, by decide, rfl, by
    simp only [OpcodeRow.holds, encode, formatI_mask_FC1F0000]; decide⟩

theorem bgezal (rs : Reg) (imm : BitVec 16) : Statement (.bgezal rs imm) := fun _ =>
  ⟨⟨"BGEZAL", 0x04110000, 0xFC1F0000⟩, by decide, rfl, by
    simp only [OpcodeRow.holds, encode, formatI_mask_FC1F0000]; decide⟩

theorem bgtz (rs : Reg) (imm : BitVec 16) : Statement (.bgtz rs imm) := fun _ =>
  ⟨⟨"BGTZ", 0x1C000000, 0xFC1F0000⟩, by decide, rfl, by
    simp only [OpcodeRow.holds, encode, formatI_mask_FC1F0000]; decide⟩

theorem blez (rs : Reg) (imm : BitVec 16) : Statement (.blez rs imm) := fun _ =>
  ⟨⟨"BLEZ", 0x18000000, 0xFC1F0000⟩, by decide, rfl, by
    simp only [OpcodeRow.holds, encode, formatI_mask_FC1F0000]; decide⟩

theorem bltz (rs : Reg) (imm : BitVec 16) : Statement (.bltz rs imm) := fun _ =>
  ⟨⟨"BLTZ", 0x04000000, 0xFC1F0000⟩, by decide, rfl, by
    simp only [OpcodeRow.holds, encode, formatI_mask_FC1F0000]; decide⟩

theorem bltzal (rs : Reg) (imm : BitVec 16) : Statement (.bltzal rs imm) := fun _ =>
  ⟨⟨"BLTZAL", 0x04100000, 0xFC1F0000⟩, by decide, rfl, by
    simp only [OpcodeRow.holds, encode, formatI_mask_FC1F0000]; decide⟩

theorem bneq (rs rt : Reg) (imm : BitVec 16) : Statement (.bneq rs rt imm) := fun _ =>
  ⟨⟨"BNEQ", 0x14000000, 0xFC000000⟩, by decide, rfl, by
    simp only [OpcodeRow.holds, encode, formatI_mask_FC000000]; decide⟩

theorem j (dest : BitVec 26) : Statement (.j dest) := fun _ =>
  ⟨⟨"J", 0x08000000, 0xFC000000⟩, by decide, rfl, by
    simp only [OpcodeRow.holds, encode, formatJ_mask_FC000000]; decide⟩

theorem jal (dest : BitVec 26) : Statement (.jal dest) := fun _ =>
  ⟨⟨"JAL", 0x0C000000, 0xFC000000⟩, by decide, rfl, by
    simp only [OpcodeRow.holds, encode, formatJ_mask_FC000000]; decide⟩

theorem jalr (rs rd : Reg) : Statement (.jalr rs rd) := fun _ =>
  ⟨⟨"JALR", 0x00000009, 0xFC1F07FF⟩, by decide, rfl, by
    simp only [OpcodeRow.holds, encode, formatR_mask_FC1F07FF]; decide⟩

theorem jr (rs : Reg) : Statement (.jr rs) := fun _ =>
  ⟨⟨"JR", 0x00000008, 0xFC1FFFFF⟩, by decide, rfl, by
    simp only [OpcodeRow.holds, encode, formatR_mask_FC1FFFFF]; decide⟩

theorem lui (rt : Reg) (imm : BitVec 16) : Statement (.lui rt imm) := fun _ =>
  ⟨⟨"LUI", 0x3C000000, 0xFFE00000⟩, by decide, rfl, by
    simp only [OpcodeRow.holds, encode, formatI_mask_FFE00000]; decide⟩

theorem lw (rt : Reg) (imm : BitVec 16) (rs : Reg) : Statement (.lw rt imm rs) := fun _ =>
  ⟨⟨"LW", 0x8C000000, 0xFC000000⟩, by decide, rfl, by
    simp only [OpcodeRow.holds, encode, formatI_mask_FC000000]; decide⟩

theorem or (rd rs rt : Reg) : Statement (.or rd rs rt) := fun _ =>
  ⟨⟨"OR", 0x00000025, 0xFC0007FF⟩, by decide, rfl, by
    simp only [OpcodeRow.holds, encode, formatR_mask_FC0007FF]; decide⟩

theorem ori (rt rs : Reg) (imm : BitVec 16) : Statement (.ori rt rs imm) := fun _ =>
  ⟨⟨"ORI", 0x34000000, 0xFC000000⟩, by decide, rfl, by
    simp only [OpcodeRow.holds, encode, formatI_mask_FC000000]; decide⟩

theorem sll (rd rt : Reg) (nb : Nat) : Statement (.sll rd rt nb) := fun _ =>
  ⟨⟨"SLL", 0x00000000, 0xFFE0003F⟩, by decide, rfl, by
    simp only [OpcodeRow.holds, encode, formatR_mask_FFE0003F]; decide⟩

theorem slt (rd rs rt : Reg) : Statement (.slt rd rs rt) := fun _ =>
  ⟨⟨"SLT", 0x0000002A, 0xFC0007FF⟩, by decide, rfl, by
    simp only [OpcodeRow.holds, encode, formatR_mask_FC0007FF]; decide⟩

theorem slti (rt rs : Reg) (imm : BitVec 16) : Statement (.slti rt rs imm) := fun _ =>
  ⟨⟨"SLTI", 0x28000000, 0xFC000000⟩, by decide, rfl, by
    simp only [OpcodeRow.holds, encode, formatI_mask_FC000000]; decide⟩

theorem sltiu (rt rs : Reg) (imm : BitVec 16) : Statement (.sltiu rt rs imm) := fun _ =>
  ⟨⟨"SLTIU", 0x2C000000, 0xFC000000⟩, by decide, rfl, by
    simp only [OpcodeRow.holds, encode, formatI_mask_FC000000]; decide⟩

theorem sltu (rd rs rt : Reg) : Statement (.sltu rd rs rt) := fun _ =>
  ⟨⟨"SLTU", 0x0000002B, 0xFC0007FF⟩, by decide, rfl, by
    simp only [OpcodeRow.holds, encode, formatR_mask_FC0007FF]; decide⟩

theorem sra (rd rt : Reg) (nb : Nat) : Statement (.sra rd rt nb) := fun _ =>
  ⟨⟨"SRA", 0x00000003, 0xFFE0003F⟩, by decide, rfl, by
    simp only [OpcodeRow.holds, encode, formatR_mask_FFE0003F]; decide⟩

theorem srl (rd rt : Reg) (nb : Nat) : Statement (.srl rd rt nb) := fun _ =>
  ⟨⟨"SRL", 0x00000002, 0xFFE0003F⟩, by decide, rfl, by
    simp only [OpcodeRow.holds, encode, formatR_mask_FFE0003F]; decide⟩

theorem sub (rd rs rt : Reg) : Statement (.sub rd rs rt) := fun _ =>
  ⟨⟨"SUB", 0x00000022, 0xFC0007FF⟩, by decide, rfl, by
    simp only [OpcodeRow.holds, encode, formatR_mask_FC0007FF]; decide⟩

theorem subu (rd rs rt : Reg) : Statement (.subu rd rs rt) := fun _ =>
  ⟨⟨"SUBU", 0x00000023, 0xFC0007FF⟩, by decide, rfl, by
    simp only [OpcodeRow.holds, encode, formatR_mask_FC0007FF]; decide⟩

theorem sw (rt : Reg) (imm : BitVec 16) (rs : Reg) : Statement (.sw rt imm rs) := fun _ =>
  ⟨⟨"SW", 0xAC000000, 0xFC000000⟩, by decide, rfl, by
    simp only [OpcodeRow.holds, encode, formatI_mask_FC000000]; decide⟩

theorem xor (rd rs rt : Reg) : Statement (.xor rd rs rt) := fun _ =>
  ⟨⟨"XOR", 0x00000026, 0xFC0007FF⟩, by decide, rfl, by
    simp only [OpcodeRow.holds, encode, formatR_mask_FC0007FF]; decide⟩

theorem xori (rt rs : Reg) (imm : BitVec 16) : Statement (.xori rt rs imm) := fun _ =>
  ⟨⟨"XORI", 0x38000000, 0xFC000000⟩, by decide, rfl, by
    simp only [OpcodeRow.holds, encode, formatI_mask_FC000000]; decide⟩

end Laws.TableRow

end Sys2Proof
end

