-- ==== Sys2Proof/Tests/Slice0.lean ====
section
/-! SUPPORT. Small tests, and a witness for the hypotheses of each statement. Expected results are copied
from spec/95_test_vectors.md ("95 section n" below), from the tables of 30_encoding.md, or worked out by
hand from a rule that the docstring names. -/

namespace Sys2Proof.Tests

open Sys2Proof Sys2Proof.Machine

/-! ### Helpers -/

/-- The machine at `pc` with the word `w` there, registers and words of memory set. -/
def machine (pc : Word) (w : Nat) (regs : List (Reg × Word)) (words : List (Word × Word)) : State :=
  words.foldl (fun s c => s.setWord c.1 c.2)
    (regs.foldl (fun s c => s.setReg c.1 c.2) ((State.start Config.resetParams pc []).withFetchWord 32 w))

/-- The usual place of 95 section 2. -/
def at8 (w : Nat) (regs : List (Reg × Word)) : State := machine 0x80000000 w regs []

/-- `s` with only the words from `first` to `last` mapped. -/
def mappedOnly (first last : Word) (s : State) : State := { s with params := ⟨true, [⟨first, last⟩]⟩ }

/-- One step gives these registers and this CP. -/
def gives (s : State) (regs : List (Reg × Word)) (cp : Word) : Bool :=
  match step s with
  | .next t => t.cp == cp && regs.all (fun c => t.reg c.1 == c.2)
  | _ => false

/-- One step gives this word of memory, and CP moves to the next word. -/
def stores (s : State) (a w : Word) : Bool :=
  match step s with
  | .next t => t.cp == s.cp + 4 && t.wordAt a == w
  | _ => false

/-- One step ends in this fault. -/
def faults (s : State) (f : Fault) : Bool :=
  match step s with
  | .fault g => g == f
  | _ => false

/-- One step is refused for this reason. -/
def refuses (s : State) (r : Refusal) : Bool :=
  match step s with
  | .refused q => q == r
  | _ => false

/-- The word decodes to the instruction. -/
def decodesTo (w : Word) (i : Instr) : Bool :=
  match decode w with
  | .ok k => k == i
  | .error _ => false

/-- The word is refused with this error. -/
def undecodable (w : Word) (e : DecodeError) : Bool :=
  match decode w with
  | .ok _ => false
  | .error d => d == e

/-! ### WellFormed: the one check, on a count a 5-bit field cannot hold (rule R120) -/

theorem test_wellFormed_sll : (Instr.sll 1 2 31).wellFormed = true ∧ (Instr.sll 1 2 32).wellFormed = false := by
  decide
theorem test_wellFormed_sra : (Instr.sra 1 2 31).wellFormed = true ∧ (Instr.sra 1 2 32).wellFormed = false := by
  decide
theorem test_wellFormed_srl : (Instr.srl 1 2 31).wellFormed = true ∧ (Instr.srl 1 2 32).wellFormed = false := by
  decide

/-! ### Decoding: every constructor from a word written out field by field (rules R63 to R65, R70) -/

/-- OP 0, rs, rt, rd, nb, ext CO. -/
theorem test_decode_arithmetic :
    decodesTo 0b000000_00001_00010_00011_00000_100000 (.add 3 1 2) = true ∧
    decodesTo 0b000000_00001_00010_00011_00000_100001 (.addu 3 1 2) = true ∧
    decodesTo 0b000000_00001_00010_00011_00000_100010 (.sub 3 1 2) = true ∧
    decodesTo 0b000000_00001_00010_00011_00000_100011 (.subu 3 1 2) = true ∧
    decodesTo 0b001000_00001_00010_1000000000000001 (.addi 2 1 0x8001) = true ∧
    decodesTo 0b001001_00001_00010_1000000000000001 (.addiu 2 1 0x8001) = true := by decide

theorem test_decode_logical :
    decodesTo 0b000000_00001_00010_00011_00000_100100 (.and 3 1 2) = true ∧
    decodesTo 0b000000_00001_00010_00011_00000_100101 (.or 3 1 2) = true ∧
    decodesTo 0b000000_00001_00010_00011_00000_100110 (.xor 3 1 2) = true ∧
    decodesTo 0b001100_00001_00010_1000000000000001 (.andi 2 1 0x8001) = true ∧
    decodesTo 0b001101_00001_00010_1000000000000001 (.ori 2 1 0x8001) = true ∧
    decodesTo 0b001110_00001_00010_1000000000000001 (.xori 2 1 0x8001) = true ∧
    decodesTo 0b001111_00000_00010_1000000000000001 (.lui 2 0x8001) = true := by decide

/-- OP 0, rs 0, rt, rd, nb, ext CO. -/
theorem test_decode_shifts :
    decodesTo 0b000000_00000_00001_00010_11110_000000 (.sll 2 1 30) = true ∧
    decodesTo 0b000000_00000_00001_00010_11110_000010 (.srl 2 1 30) = true ∧
    decodesTo 0b000000_00000_00001_00010_11110_000011 (.sra 2 1 30) = true := by decide

theorem test_decode_compare :
    decodesTo 0b000000_00001_00010_00011_00000_101010 (.slt 3 1 2) = true ∧
    decodesTo 0b000000_00001_00010_00011_00000_101011 (.sltu 3 1 2) = true ∧
    decodesTo 0b001010_00001_00010_1000000000000001 (.slti 2 1 0x8001) = true ∧
    decodesTo 0b001011_00001_00010_1000000000000001 (.sltiu 2 1 0x8001) = true := by decide

/-- The four selected by rt have OP 1 and the selector in bits 20 to 16. -/
theorem test_decode_branches :
    decodesTo 0b000100_00001_00010_1000000000000100 (.beq 1 2 0x8004) = true ∧
    decodesTo 0b000101_00001_00010_1000000000000100 (.bneq 1 2 0x8004) = true ∧
    decodesTo 0b000110_00001_00000_1000000000000100 (.blez 1 0x8004) = true ∧
    decodesTo 0b000111_00001_00000_1000000000000100 (.bgtz 1 0x8004) = true ∧
    decodesTo 0b000001_00010_00000_1000000000000100 (.bltz 2 0x8004) = true ∧
    decodesTo 0b000001_00010_00001_1000000000000100 (.bgez 2 0x8004) = true ∧
    decodesTo 0b000001_00010_10000_1000000000000100 (.bltzal 2 0x8004) = true ∧
    decodesTo 0b000001_00010_10001_1000000000000100 (.bgezal 2 0x8004) = true := by decide

theorem test_decode_jumps :
    decodesTo 0b000010_10000000000000000000000001 (.j 0x2000001) = true ∧
    decodesTo 0b000011_10000000000000000000000001 (.jal 0x2000001) = true ∧
    decodesTo 0b000000_00001_00000_00000_00000_001000 (.jr 1) = true ∧
    decodesTo 0b000000_00001_00000_11111_00000_001001 (.jalr 1 31) = true := by decide

theorem test_decode_loadStore :
    decodesTo 0b100011_00010_00001_1111111111111100 (.lw 1 0xFFFC 2) = true ∧
    decodesTo 0b101011_00010_00001_1111111111111100 (.sw 1 0xFFFC 2) = true := by decide

/-- Rule R71: no word belongs to two rows of the opcode table (their fixed bits differ somewhere). -/
theorem test_opcodeTable_rows_apart :
    ∀ r ∈ opcodeTable, ∀ o ∈ opcodeTable, r.pattern &&& o.mask = o.pattern &&& r.mask → r = o := by decide

/-- 95 section 2.1: unused fields that are not 0 (rule R74). -/
theorem test_decode_unusedFields :
    [0x00221860, 0x00200800, 0x00210008, 0x00200808, 0x00200048].all
      (fun w => undecodable w (.unusedFieldNotZero w)) = true ∧
    [0x0021F809, 0x0020F849, 0x18210000, 0x1C210000, 0x3C210000].all
      (fun w => undecodable w (.unusedFieldNotZero w)) = true := by decide

/-- 95 section 2.1: numbers the opcode map does not give (rule R78). -/
theorem test_decode_reservedNumbers :
    [0x00000001, 0x00000004, 0x00000006, 0x00000007, 0x0000000C, 0x0000000D].all
      (fun w => undecodable w (.undefinedExtension w)) = true ∧
    [0x00000010, 0x00220018, 0x0022001A, 0x00221827, 0x0000003F].all
      (fun w => undecodable w (.undefinedExtension w)) = true ∧
    [0x04220000, 0x04320000, 0x043F0000].all (fun w => undecodable w (.undefinedSelector w)) = true ∧
    undecodable 0x40000000 (.undefinedOp 0x40000000) = true := by decide

/-- Both byte orders of the word 00221820H, ADD R3,R1,R2, and three bytes, which are no instruction
(rules R41, R60). -/
theorem test_decodeBytes :
    decodeBytes true [0x00, 0x22, 0x18, 0x20, 0x55] = .ok (.add 3 1 2, [0x55]) ∧
    decodeBytes false [0x20, 0x18, 0x22, 0x00] = .ok (.add 3 1 2, []) ∧
    decodeBytes true [0x00, 0x22, 0x18] = .error .truncated := by decide

theorem test_decodeTableWord :
    decodeTableWord 32 0x20430FFC = some (.addi 3 2 0x0FFC) ∧ decodeTableWord 32 0x00221860 = none := by decide

/-- 95 section 2.1: a word that is no instruction ends the step in the fault that names it. -/
theorem test_reserved_word_faults :
    faults (at8 0x0000000C []) (.reservedInstruction 0x0000000C) = true ∧
    faults (at8 0x00221860 []) (.reservedInstruction 0x00221860) = true := by decide

/-! ### Arithmetic (95 section 2.2) -/

theorem test_add :
    gives (at8 0x00221820 [(1, 0x7FFFFFFF), (2, 0x80000000)]) [(3, 0xFFFFFFFF)] 0x80000004 = true ∧
    gives (at8 0x00210820 [(1, 0x3FFFFFFF)]) [(1, 0x7FFFFFFE)] 0x80000004 = true := by decide
theorem test_add_overflow :
    faults (at8 0x00221820 [(1, 0x80000000), (2, 0xFFFFFFFF)]) (.integerOverflow 0x00221820) = true ∧
    faults (at8 0x00220020 [(1, 0x7FFFFFFF), (2, 1)]) (.integerOverflow 0x00220020) = true := by decide
theorem test_addu :
    gives (at8 0x00221821 [(1, 0xFFFFFFFF), (2, 0xFFFFFFFF)]) [(3, 0xFFFFFFFE)] 0x80000004 = true := by decide
theorem test_addi :
    gives (at8 0x20228000 [(1, 0x80008000)]) [(2, 0x80000000)] 0x80000004 = true ∧
    gives (at8 0x20430FFC [(2, 0xB0000000)]) [(3, 0xB0000FFC)] 0x80000004 = true := by decide
theorem test_addi_overflow :
    faults (at8 0x20227FFF [(1, 0x7FFF8001)]) (.integerOverflow 0x20227FFF) = true ∧
    faults (at8 0x20228000 [(1, 0x80007FFF)]) (.integerOverflow 0x20228000) = true := by decide
theorem test_addiu :
    gives (at8 0x24220001 [(1, 0x7FFFFFFF)]) [(2, 0x80000000)] 0x80000004 = true ∧
    gives (at8 0x24228000 [(1, 0x00010000)]) [(2, 0x00008000)] 0x80000004 = true := by decide
theorem test_sub :
    gives (at8 0x00221822 [(1, 5), (2, 7)]) [(3, 0xFFFFFFFE)] 0x80000004 = true ∧
    gives (at8 0x00221822 [(1, 0xFFFFFFFF), (2, 0x80000000)]) [(3, 0x7FFFFFFF)] 0x80000004 = true := by decide
theorem test_sub_overflow :
    faults (at8 0x00221822 [(1, 0), (2, 0x80000000)]) (.integerOverflow 0x00221822) = true ∧
    faults (at8 0x00221822 [(1, 0x7FFFFFFF), (2, 0xFFFFFFFF)]) (.integerOverflow 0x00221822) = true := by decide
theorem test_subu :
    gives (at8 0x00221823 [(1, 0), (2, 1)]) [(3, 0xFFFFFFFF)] 0x80000004 = true ∧
    gives (at8 0x00021823 [(2, 0x80000000)]) [(3, 0x80000000)] 0x80000004 = true := by decide

/-! ### Logical operations and LUI (95 section 2.3) -/

theorem test_and :
    gives (at8 0x00221824 [(1, 0xFF00FF00), (2, 0x0FF00FF0)]) [(3, 0x0F000F00)] 0x80000004 = true := by decide
theorem test_andi :
    gives (at8 0x30228000 [(1, 0xFFFFFFFF)]) [(2, 0x00008000)] 0x80000004 = true := by decide
theorem test_or :
    gives (at8 0x00221825 [(1, 0xFF00FF00), (2, 0x0FF00FF0)]) [(3, 0xFFF0FFF0)] 0x80000004 = true := by decide
theorem test_ori :
    gives (at8 0x34218800 [(1, 0xDE000000)]) [(1, 0xDE008800)] 0x80000004 = true := by decide
theorem test_xor :
    gives (at8 0x00221826 [(1, 0xFF00FF00), (2, 0x0FF00FF0)]) [(3, 0xF0F0F0F0)] 0x80000004 = true := by decide
theorem test_xori :
    gives (at8 0x3822FFFF [(1, 0xFFFFFFFF)]) [(2, 0xFFFF0000)] 0x80000004 = true := by decide
theorem test_lui :
    gives (at8 0x3C01DE00 [(1, 0xFFFFFFFF)]) [(1, 0xDE000000)] 0x80000004 = true ∧
    gives (at8 0x3C001234 []) [(0, 0)] 0x80000004 = true := by decide

/-! ### Shifts (95 section 2.4) -/

theorem test_sll :
    gives (at8 0x00011000 [(1, 0x80000001)]) [(2, 0x80000001)] 0x80000004 = true ∧
    gives (at8 0x000117C0 [(1, 0x80000001)]) [(2, 0x80000000)] 0x80000004 = true := by decide
theorem test_srl :
    gives (at8 0x00011042 [(1, 0x80000001)]) [(2, 0x40000000)] 0x80000004 = true ∧
    gives (at8 0x000117C2 [(1, 0x80000001)]) [(2, 0x00000001)] 0x80000004 = true := by decide
theorem test_sra :
    gives (at8 0x00011043 [(1, 0x80000001)]) [(2, 0xC0000000)] 0x80000004 = true ∧
    gives (at8 0x000117C3 [(1, 0x80000001)]) [(2, 0xFFFFFFFF)] 0x80000004 = true := by decide

/-! ### Comparisons (95 section 2.5) -/

theorem test_slt :
    gives (at8 0x0022182A [(1, 0x80000000), (2, 0x7FFFFFFF)]) [(3, 1)] 0x80000004 = true ∧
    gives (at8 0x0022182A [(1, 1), (2, 0xFFFFFFFF)]) [(3, 0)] 0x80000004 = true := by decide
theorem test_sltu :
    gives (at8 0x0022182B [(1, 0xFFFFFFFF), (2, 1)]) [(3, 0)] 0x80000004 = true ∧
    gives (at8 0x0002182B [(2, 7)]) [(3, 1)] 0x80000004 = true := by decide
theorem test_slti :
    gives (at8 0x2822FFFF [(1, 0xFFFFFFFE)]) [(2, 1)] 0x80000004 = true ∧
    gives (at8 0x28228000 [(1, 0xFFFF0000)]) [(2, 1)] 0x80000004 = true := by decide
theorem test_sltiu :
    gives (at8 0x2C22FFFF [(1, 0xFFFFFFFE), (2, 9)]) [(2, 0)] 0x80000004 = true ∧
    gives (at8 0x2C228000 [(1, 0x00007FFF)]) [(2, 1)] 0x80000004 = true := by decide

/-! ### Branches (95 section 2.6) -/

theorem test_beq :
    gives (at8 0x10220100 [(1, 5), (2, 5)]) [] 0x80000104 = true ∧
    gives (at8 0x10220100 [(1, 5), (2, 6)]) [] 0x80000004 = true := by decide
theorem test_beq_reach :
    gives (at8 0x10008000 []) [] 0x7FFF8004 = true ∧ gives (at8 0x10000002 []) [] 0x80000006 = true := by decide
theorem test_bneq :
    gives (at8 0x14220100 [(1, 5), (2, 6)]) [] 0x80000104 = true ∧
    gives (at8 0x14220100 [(1, 5), (2, 5)]) [] 0x80000004 = true := by decide
theorem test_bgez :
    gives (at8 0x04210100 [(1, 0)]) [] 0x80000104 = true ∧
    gives (at8 0x04210100 [(1, 0x80000000)]) [] 0x80000004 = true := by decide
theorem test_bgtz :
    gives (at8 0x1C200100 [(1, 0)]) [] 0x80000004 = true ∧
    gives (at8 0x1C200100 [(1, 1)]) [] 0x80000104 = true ∧
    gives (at8 0x1C200100 [(1, 0xFFFFFFFF)]) [] 0x80000004 = true := by decide
theorem test_blez :
    gives (at8 0x18200100 [(1, 0)]) [] 0x80000104 = true ∧
    gives (at8 0x18200100 [(1, 1)]) [] 0x80000004 = true ∧
    gives (at8 0x18200100 [(1, 0xFFFFFFFF)]) [] 0x80000104 = true := by decide
theorem test_bltz :
    gives (at8 0x04200100 [(1, 0)]) [] 0x80000004 = true ∧
    gives (at8 0x0420FFF8 [(1, 0x80000000)]) [] 0x7FFFFFFC = true := by decide
theorem test_bgezal :
    gives (at8 0x04310100 [(1, 0), (31, 0x11111111)]) [(31, 0x80000004)] 0x80000104 = true ∧
    gives (at8 0x04310100 [(1, 0xFFFFFFFF), (31, 0x11111111)]) [(31, 0x80000004)] 0x80000004 = true := by decide
theorem test_bgezal_on_r31 : refuses (at8 0x07F10100 [(31, 0)]) .bgezalOnR31 = true := by decide
theorem test_bltzal :
    gives (at8 0x04300100 [(1, 0xFFFFFFFF), (31, 0x11111111)]) [(31, 0x80000004)] 0x80000104 = true ∧
    gives (at8 0x04300100 [(1, 0), (31, 0x11111111)]) [(31, 0x80000004)] 0x80000004 = true := by decide
/-- Rule R150 for the other linking branch: the word is 07F10100H with the selector 10000. -/
theorem test_bltzal_on_r31 : refuses (at8 0x07F00100 [(31, 0)]) .bltzalOnR31 = true := by decide

/-! ### Jumps (95 section 2.7) -/

theorem test_j :
    gives (machine 0x80008000 0x0BFFFFFF [] []) [] 0x8FFFFFFC = true ∧
    gives (machine 0x00000000 0x08000000 [] []) [] 0x00000000 = true := by decide
theorem test_j_in_last_word : refuses (machine 0x0FFFFFFC 0x08000010 [] []) .jInLastWordOfRegion = true := by
  decide
theorem test_jal :
    gives (machine 0x80000008 0x0C000040 [(31, 0x11111111)] []) [(31, 0x8000000C)] 0x80000100 = true := by decide
/-- Rule R161 for JAL, at the last word of the address space. -/
theorem test_jal_in_last_word : refuses (machine 0xFFFFFFFC 0x0C000010 [] []) .jalInLastWordOfRegion = true := by
  decide
theorem test_jr :
    gives (at8 0x00200008 [(1, 0xDE008800)]) [] 0xDE008800 = true ∧
    gives (at8 0x00200008 [(1, 0x80000102)]) [] 0x80000102 = true := by decide
theorem test_jalr :
    gives (at8 0x0020F809 [(1, 0xDE000000), (31, 0x11111111)]) [(31, 0x80000004)] 0xDE000000 = true ∧
    gives (at8 0x00200809 [(1, 0x80000100)]) [(1, 0x80000004)] 0x80000100 = true ∧
    gives (at8 0x00200009 [(1, 0x80000100)]) [(1, 0x80000100), (0, 0)] 0x80000100 = true := by decide

/-! ### Load and store (95 section 2.8) -/

theorem test_lw :
    gives (machine 0x80000000 0x8C418000 [(2, 0xB0008000)] [(0xB0000000, 0x12345678)]) [(1, 0x12345678)]
      0x80000004 = true ∧
    gives (machine 0x80000000 0x8C410004 [(2, 0xFFFFFFFC)] [(0x00000000, 0x00C0FFEE)]) [(1, 0x00C0FFEE)]
      0x80000004 = true ∧
    gives (machine 0x80000000 0x8C420000 [(2, 0xB0000000)] [(0xB0000000, 0x12345678)]) [(2, 0x12345678)]
      0x80000004 = true := by decide
theorem test_lw_faults :
    faults (at8 0x8C410002 [(2, 0xB0000000)]) (.addressError 0xB0000002 .load) = true ∧
    faults (mappedOnly 0x80000000 0x80000FFC (at8 0x8C410000 [(2, 0xB0000000)])) (.accessFault 0xB0000000 .load)
      = true := by decide
theorem test_sw :
    stores (at8 0xAC41FFFC [(1, 0xAABBCCDD), (2, 0xA0000004)]) 0xA0000000 0xAABBCCDD = true ∧
    stores (machine 0x80000000 0xAC400000 [(2, 0xA0000000)] [(0xA0000000, 0xDEADBEEF)]) 0xA0000000 0 = true := by
  decide
theorem test_sw_faults :
    faults (at8 0xAC410001 [(1, 0xAABBCCDD), (2, 0xA0000000)]) (.addressError 0xA0000001 .store) = true ∧
    faults (mappedOnly 0x80000000 0x80000FFC (at8 0xAC410000 [(2, 0xA0000000)])) (.accessFault 0xA0000000 .store)
      = true := by decide

/-- Rule R41: where the four bytes of AABBCCDDH stand in the two byte orders. -/
theorem test_byteOrder :
    Memory.writeWord [] true 0xA0000000 0xAABBCCDD =
      [(0xA0000000, 0xAA), (0xA0000001, 0xBB), (0xA0000002, 0xCC), (0xA0000003, 0xDD)] ∧
    Memory.writeWord [] false 0xA0000000 0xAABBCCDD =
      [(0xA0000000, 0xDD), (0xA0000001, 0xCC), (0xA0000002, 0xBB), (0xA0000003, 0xAA)] := by decide

/-- The canonical form: a write below keeps the addresses rising, a second write replaces. -/
theorem test_memory_canonical :
    Memory.write [(4, 0x11)] 2 0x22 = [(2, 0x22), (4, 0x11)] ∧ Memory.write [(4, 0x11)] 4 0x22 = [(4, 0x22)] := by
  decide

/-- Log 34: the word placed after the one at FFFFFFFCH stands at 00000000H. -/
theorem test_writeWords_wraps :
    Memory.writeWords [] true 0xFFFFFFFC [0x00000020, 0x20000005] =
      [(0, 0x20), (1, 0x00), (2, 0x00), (3, 0x05),
        (0xFFFFFFFC, 0x00), (0xFFFFFFFD, 0x00), (0xFFFFFFFE, 0x00), (0xFFFFFFFF, 0x20)] := by decide

/-! ### Fetch and R0 (95 section 2.9) -/

theorem test_fetch_faults :
    faults (State.start Config.resetParams 0x80000002 []) (.addressError 0x80000002 .fetch) = true ∧
    faults (mappedOnly 0x80000000 0x80000FFC (machine 0xC0000000 0x00000020 [] [])) (.accessFault 0xC0000000 .fetch)
      = true := by decide
theorem test_cp_wraps : gives (machine 0xFFFFFFFC 0x00000020 [] []) [] 0x00000000 = true := by decide
theorem test_r0_is_not_written : gives (at8 0x20000005 []) [(0, 0)] 0x80000004 = true := by decide

/-- Rule R236: a run whose CP is END_PC is over, and the word there is not fetched. -/
theorem test_runUntil_end : runUntil 0x80000002 3 (State.start Config.resetParams 0x80000002 []) =
    .over (State.start Config.resetParams 0x80000002 []) := rfl

/-! ### The assembler (95 sections 1.4 and 1.5; C1, C2) -/

set_option maxRecDepth 8000 in
theorem test_assemble_q7 :
    assemble 0x80000000 ["LUI R1,DE00", "ORI R1,R1,8800", "JR R1"] =
      .ok [0x3C01DE00, 0x34218800, 0x00200008] := by decide
set_option maxRecDepth 8000 in
/-- The same with the H, and 95 section 2.2's decimal number of four digits. -/
theorem test_assemble_numbers :
    assemble 0x80000004 ["ORI R1,R1,8800H"] = .ok [0x34218800] ∧
    assemble 0x80000004 ["ADDI R3,R2,4092"] = .ok [0x20430FFC] ∧
    assemble 0x80000000 ["LUI R2,0"] = .ok [0x3C020000] := by decide
set_option maxRecDepth 8000 in
/-- Log 35, and 95 section 1.3's highest target from the same J. -/
theorem test_assemble_target :
    assemble 0x80008000 ["J 18FFFFFFCH"] = .error (.notAnAddress 0x18FFFFFFC) ∧
    assemble 0x80008000 ["J 8FFFFFFCH"] = .ok [0x0BFFFFFF] := by decide
set_option maxRecDepth 8000 in
theorem test_assemble_q8 :
    assemble 0x80000000
      ["LUI R2, A000H", "LUI R3, A001H", "Boucle: SW R0, 0(R2)", "ADDI R2,R2,4", "BNE R2,R3, boucle"] =
      .ok [0x3C02A000, 0x3C03A001, 0xAC400000, 0x20420004, 0x1443FFF4] := by decide
set_option maxRecDepth 8000 in
theorem test_assemble_q9_line : assemble 0x80000100 ["SLLI R5,R5,2 // 4*N"] = .ok [0x00052880] := by decide
set_option maxRecDepth 8000 in
theorem test_assemble_q10_line : assemble 0x80000004 ["ADDI R3, R2, 4*1023"] = .ok [0x20430FFC] := by decide

/-! ### Witnesses: the hypotheses of each statement, met together, at the ends of their ranges -/

/-- Two registers set, on a machine with nothing placed. -/
def two (a b : Word) : State := ((State.start Config.resetParams 0x80000000 []).setReg 1 a).setReg 2 b

theorem witness_AddWritesTheExactSum :
    (-2 ^ 31 ≤ ((two 0x7FFFFFFE 1).reg 1).toInt + ((two 0x7FFFFFFE 1).reg 2).toInt ∧
      ((two 0x7FFFFFFE 1).reg 1).toInt + ((two 0x7FFFFFFE 1).reg 2).toInt = 2 ^ 31 - 1) ∧
    (((two 0x80000001 0xFFFFFFFF).reg 1).toInt + ((two 0x80000001 0xFFFFFFFF).reg 2).toInt = -2 ^ 31 ∧
      ((two 0x80000001 0xFFFFFFFF).reg 1).toInt + ((two 0x80000001 0xFFFFFFFF).reg 2).toInt ≤ 2 ^ 31 - 1) := by
  decide

theorem witness_AddiWritesTheExactSum :
    (-2 ^ 31 ≤ ((two 0x7FFF8000 0).reg 1).toInt + (0x7FFF#16).toInt ∧
      ((two 0x7FFF8000 0).reg 1).toInt + (0x7FFF#16).toInt = 2 ^ 31 - 1) ∧
    (((two 0x80008000 0).reg 1).toInt + (0x8000#16).toInt = -2 ^ 31 ∧
      ((two 0x80008000 0).reg 1).toInt + (0x8000#16).toInt ≤ 2 ^ 31 - 1) := by decide

theorem witness_SubWritesTheExactDifference :
    (-2 ^ 31 ≤ ((two 0xFFFFFFFF 0x80000000).reg 1).toInt - ((two 0xFFFFFFFF 0x80000000).reg 2).toInt ∧
      ((two 0xFFFFFFFF 0x80000000).reg 1).toInt - ((two 0xFFFFFFFF 0x80000000).reg 2).toInt = 2 ^ 31 - 1) ∧
    (((two 0x80000001 1).reg 1).toInt - ((two 0x80000001 1).reg 2).toInt = -2 ^ 31 ∧
      ((two 0x80000001 1).reg 1).toInt - ((two 0x80000001 1).reg 2).toInt ≤ 2 ^ 31 - 1) := by decide

/-- ADD, one past each end. -/
theorem witness_SignedArithmeticFaultsOutOfRange_add :
    ((two 0x80000000 0xFFFFFFFF).reg 1).toInt + ((two 0x80000000 0xFFFFFFFF).reg 2).toInt < -2 ^ 31 ∧
    2 ^ 31 - 1 < ((two 0x7FFFFFFF 1).reg 1).toInt + ((two 0x7FFFFFFF 1).reg 2).toInt := by decide

/-- ADDI, one past each end. -/
theorem witness_SignedArithmeticFaultsOutOfRange_addi :
    ((two 0x80007FFF 0).reg 1).toInt + (0x8000#16).toInt < -2 ^ 31 ∧
    2 ^ 31 - 1 < ((two 0x7FFF8001 0).reg 1).toInt + (0x7FFF#16).toInt := by decide

/-- SUB, one past each end. -/
theorem witness_SignedArithmeticFaultsOutOfRange_sub :
    ((two 0x80000000 1).reg 1).toInt - ((two 0x80000000 1).reg 2).toInt < -2 ^ 31 ∧
    2 ^ 31 - 1 < ((two 0 0x80000000).reg 1).toInt - ((two 0 0x80000000).reg 2).toInt := by decide

/-- Counts 0 and 31 for the three shift statements. -/
theorem witness_SllMultipliesByAPowerOfTwo : (0 : Nat) < 32 ∧ (31 : Nat) < 32 := by decide
theorem witness_SraDividesRoundingDown : (0 : Nat) < 32 ∧ (31 : Nat) < 32 := by decide
theorem witness_SrlDividesUnsigned : (0 : Nat) < 32 ∧ (31 : Nat) < 32 := by decide

theorem witness_BgezalLinksAndBranches : (0 : Reg) ≠ 31 ∧ (30 : Reg) ≠ 31 := by decide
theorem witness_BltzalLinksAndBranches : (0 : Reg) ≠ 31 ∧ (30 : Reg) ≠ 31 := by decide

theorem witness_MisalignedBranchTargetFaultsAtTheFetch :
    aligned (two 5 5).cp = true ∧ (two 5 5).reg 1 = (two 5 5).reg 2 ∧ (1#16).toNat % 4 ≠ 0 ∧
      (0xFFFF#16).toNat % 4 ≠ 0 := by decide

/-- The first word of a region and the last but one. -/
theorem witness_JJumpsWithinItsRegion :
    (State.start Config.resetParams 0x80000000 []).cp.toNat / 4 % 2 ^ 26 ≠ 2 ^ 26 - 1 ∧
    (State.start Config.resetParams 0x8FFFFFF8 []).cp.toNat / 4 % 2 ^ 26 ≠ 2 ^ 26 - 1 := by decide
theorem witness_JalLinksAndJumpsWithinItsRegion :
    (State.start Config.resetParams 0x80000000 []).cp.toNat / 4 % 2 ^ 26 ≠ 2 ^ 26 - 1 ∧
    (State.start Config.resetParams 0x8FFFFFF8 []).cp.toNat / 4 % 2 ^ 26 ≠ 2 ^ 26 - 1 := by decide

/-- Each of the four cases occurs. -/
theorem witness_RefusedExactlyInTheFourCases :
    exec (.j 0) (State.start Config.resetParams 0x8FFFFFFC []) = .refused .jInLastWordOfRegion ∧
    exec (.jal 0) (State.start Config.resetParams 0xFFFFFFFC []) = .refused .jalInLastWordOfRegion ∧
    exec (.bgezal 31 8) State.reset = .refused .bgezalOnR31 ∧
    exec (.bltzal 31 8) State.reset = .refused .bltzalOnR31 := ⟨rfl, rfl, rfl, rfl⟩

/-- Addresses 0 and FFFFFFFCH. -/
theorem witness_LwLoadsTheWord :
    (aligned ((two 4 0).effectiveAddress 1 0xFFFC) = true ∧
      mappedIn (two 4 0).params ((two 4 0).effectiveAddress 1 0xFFFC) = true) ∧
    (aligned ((two 0 0).effectiveAddress 1 0xFFFC) = true ∧
      mappedIn (two 0 0).params ((two 0 0).effectiveAddress 1 0xFFFC) = true) := by decide
theorem witness_SwStoresTheWord :
    (aligned ((two 4 0).effectiveAddress 2 0) = true ∧
      mappedIn (two 4 0).params ((two 4 0).effectiveAddress 2 0) = true) ∧
    (aligned ((two 0 0xFFFFFFF8).effectiveAddress 2 4) = true ∧
      mappedIn (two 0 0xFFFFFFF8).params ((two 0 0xFFFFFFF8).effectiveAddress 2 4) = true) := by decide

/-- A misaligned address, and an aligned one that is not mapped. -/
theorem witness_DataAccessFaultsInOrder :
    ((two 0xB0000000 0).effectiveAddress 1 2).toNat % 4 ≠ 0 ∧
    ((mappedOnly 0x80000000 0x80000FFC (two 0x80001000 0)).effectiveAddress 1 0).toNat % 4 = 0 ∧
    mappedIn (mappedOnly 0x80000000 0x80000FFC (two 0x80001000 0)).params
      ((mappedOnly 0x80000000 0x80000FFC (two 0x80001000 0)).effectiveAddress 1 0) = false := by decide

theorem witness_LoadAfterStoreGivesTheStoredWord : ∃ t, exec (.sw 1 0 2) (two 7 0xA0000000) = .next t :=
  ⟨_, rfl⟩

/-- At CP 0, SW R1, 4(R0) stores the next instruction. -/
theorem witness_StoreIsSeenByTheFetch :
    ∃ t, exec (.sw 1 4 0) ((two 0x20430FFC 0).goto 0) = .next t ∧
      decode (((two 0x20430FFC 0).goto 0).reg 1) = .ok (.addi 3 2 0x0FFC) ∧
      t.cp = ((two 0x20430FFC 0).goto 0).effectiveAddress 0 4 := ⟨_, rfl, rfl, rfl⟩

/-- The two sides of bit 15, and the ends. -/
theorem witness_ImmediatesAreExtended : (0 : Nat) < 32 ∧ (15 : Nat) < 32 ∧ (16 : Nat) < 32 ∧ (31 : Nat) < 32 := by
  decide

/-- In both byte orders, ADD R3,R1,R2. -/
theorem witness_StepRunsTheDecodedInstruction :
    ∀ big ∈ [true, false],
      let s := (State.start ⟨big, [Config.wholeSpace]⟩ 0xFFFFFFFC []).withFetchWord 32 0x00221820
      aligned s.cp = true ∧ mappedIn s.params s.cp = true ∧
        decodeBytes s.params.bigEndian
          [s.byteAt s.cp.toNat, s.byteAt (s.cp.toNat + 1), s.byteAt (s.cp.toNat + 2), s.byteAt (s.cp.toNat + 3)] =
          .ok (.add 3 1 2, []) := by decide

/-- The first program of 95 section 1.4. -/
theorem witness_StartedRunBeginsWithTheFirstWord :
    ∃ s, s = State.start Config.resetParams 0x80000000
        (Memory.writeWords [] Config.resetParams.bigEndian 0x80000000 [0x3C01DE00, 0x00200008]) ∧
      aligned (0x80000000#32) = true ∧ mappedIn Config.resetParams 0x80000000#32 = true ∧
      decode 0x3C01DE00 = .ok (.lui 1 0xDE00) := ⟨_, rfl, by decide⟩

/-- A misaligned CP, an unmapped CP, and a word that no instruction has. -/
theorem witness_FetchFaultsInOrder :
    ((two 0 0).goto 0x80000002).cp.toNat % 4 ≠ 0 ∧
    (((mappedOnly 0x80000000 0x80000FFC (two 0 0)).goto 0x80001000).cp.toNat % 4 = 0 ∧
      mappedIn (mappedOnly 0x80000000 0x80000FFC (two 0 0)).params 0x80001000 = false) ∧
    ((at8 0x0000000C []).cp.toNat % 4 = 0 ∧ mappedIn (at8 0x0000000C []).params (at8 0x0000000C []).cp = true ∧
      ∀ i, decode ((at8 0x0000000C []).wordAt (at8 0x0000000C []).cp) ≠ .ok i) := by
  have h : decode ((at8 0x0000000C []).wordAt (at8 0x0000000C []).cp) =
      .error (.undefinedExtension 0x0000000C) := by decide
  refine ⟨by decide, by decide, by decide, by decide, fun i e => ?_⟩
  rw [h] at e
  cases e

/-- One fault of each of the three kinds. -/
theorem witness_OnlyTheNamedInstructionsFault :
    exec (.add 3 1 2) (two 0x7FFFFFFF 1) = .fault (.integerOverflow 0x00221820) ∧
    exec (.lw 1 2 2) (two 0 0xB0000000) = .fault (.addressError 0xB0000002 .load) ∧
    exec (.sw 1 1 2) (two 0 0xA0000000) = .fault (.addressError 0xA0000001 .store) := ⟨rfl, rfl, rfl⟩

/-- A register that is not the destination, and R0 when it is. -/
theorem witness_OnlyTheDestinationRegisterChanges :
    (∃ t, exec (.add 3 1 2) (two 5 7) = .next t ∧ (Instr.add 3 1 2).destination ≠ some 1) ∧
    (∃ t, exec (.add 0 1 2) (two 5 7) = .next t ∧ (Instr.add 0 1 2).destination = some 0) :=
  ⟨⟨_, rfl, by decide⟩, _, rfl, rfl⟩

theorem witness_OnlySwChangesMemory :
    ∃ t, exec (.jal 0x40) (two 5 7) = .next t ∧ (Instr.jal 0x40).mnemonic ≠ "SW" := ⟨_, rfl, by decide⟩

theorem witness_StepKeepsTheParameters : ∃ t, step (at8 0xAC410000 [(2, 0xA0000000)]) = .next t := ⟨_, rfl⟩

/-- Counts 0 and 31; for the other forms there is nothing to meet. -/
theorem witness_DecodeOfEncode :
    (Instr.sll 31 31 0).wellFormed = true ∧ (Instr.sra 31 31 31).wellFormed = true ∧
    (Instr.lw 31 0xFFFF 31).wellFormed = true := by decide

theorem witness_EncodeOfDecode : decode 0x8C41FFFC = .ok (.lw 1 0xFFFC 2) := by decide

theorem witness_OnlyBranchesAndJumpsSetCp :
    (∃ t, exec (.and 3 1 2) (two 5 7) = .next t) ∧
    (Instr.and 3 1 2).mnemonic ∉
      ["BEQ", "BGEZ", "BGEZAL", "BGTZ", "BLEZ", "BLTZ", "BLTZAL", "BNEQ", "J", "JAL", "JALR", "JR"] :=
  ⟨⟨_, rfl⟩, by decide⟩

/-- A SW, so that the step changes memory. -/
theorem witness_StepKeepsMemoryCanonical :
    (at8 0xAC410000 [(2, 0xA0000000)]).inv ∧ ∃ t, step (at8 0xAC410000 [(2, 0xA0000000)]) = .next t :=
  ⟨by unfold State.inv; decide, _, rfl⟩

/-- One program word placed in either byte order. -/
theorem witness_ByteOrderIsUnobservable :
    SameButByteOrder ((State.start ⟨true, [Config.wholeSpace]⟩ 0x80000000 []).setWord 0x80000000 0xAC410000)
      ((State.start ⟨false, [Config.wholeSpace]⟩ 0x80000000 []).setWord 0x80000000 0xAC410000) := by
  refine ⟨fun _ => rfl, rfl, rfl, fun a ha _ => ?_⟩
  by_cases h : a = 0x80000000
  · subst h; rw [wordAt_setWord_self, wordAt_setWord_self]
  · rw [wordAt_setWord_of_ne _ _ (by decide) ha h, wordAt_setWord_of_ne _ _ (by decide) ha h,
      wordAt_of_unwritten _ ha (fun _ _ => rfl), wordAt_of_unwritten _ ha (fun _ _ => rfl)]

/-- A run of one step to END_PC. -/
theorem witness_FinishedRunStandsAtItsEnd :
    ∃ t, runUntil 0x80000004 1 (at8 0x20000005 []) = .over t := ⟨_, rfl⟩

theorem witness_FaultedRunStaysFaulted :
    ∃ t, runUntil 0x80000004 1 (at8 0x0000000C []) = .faulted t (.reservedInstruction 0x0000000C) := ⟨_, rfl⟩

/-- The farthest backward displacement of 95 section 2.6, and the highest target of 95 section 1.3. -/
theorem witness_AssembledTargetsAreReached :
    (branchImm (two 5 5).cp 0x7FFF8004 = .ok 0x8000 ∧ (two 5 5).reg 1 = (two 5 5).reg 2) ∧
    (jumpField (two 5 5).cp 0x8FFFFFFC = .ok 0x3FFFFFF ∧ (two 5 5).cp.toNat / 4 % 2 ^ 26 ≠ 2 ^ 26 - 1) := by decide

end Sys2Proof.Tests
end

section
/-! The bits of the extended immediates (rule R8). -/

namespace Sys2Proof.Machine

/-- Above its 16 bits SIMM repeats the sign bit (rule R8). -/
theorem getLsbD_simm (imm : BitVec 16) {k : Nat} (hk : k < 32) :
    (simm imm).getLsbD k = if k < 16 then imm.getLsbD k else imm.getLsbD 15 := by
  rw [simm, BitVec.getLsbD_signExtend, decide_eq_true hk, Bool.true_and, BitVec.msb_eq_getLsbD_last]

/-- The guard is the one the immediate logical operations need at every `k`, past bit 31 too (rule R8). -/
@[simp] theorem getLsbD_zimm (imm : BitVec 16) (k : Nat) :
    (zimm imm).getLsbD k = (decide (k < 16) && imm.getLsbD k) := by
  rw [zimm, BitVec.zeroExtend, BitVec.getLsbD_setWidth]
  by_cases hk : k < 16
  · rw [decide_eq_true hk, decide_eq_true (by omega : k < 32)]
  · rw [BitVec.getLsbD_of_ge imm k (by omega), Bool.and_false, Bool.and_false]

/-- Settles O42, from the bits of SIMM and of ZIMM. -/
theorem immediatesAreExtended : Obligations.ImmediatesAreExtended := by
  intro imm k hk
  refine ⟨getLsbD_simm imm hk, ?_⟩
  rw [getLsbD_zimm, Bool.if_false_right]

end Sys2Proof.Machine
end

section
/-! The logical operations and LUI (rules R111 to R117): each ends in `writeBack`, so only its value is its own. -/

namespace Sys2Proof.Machine

/-- An instruction that ends by writing `v` back completes, writes a value with any property `v` has, and
changes nothing else but CP. -/
theorem writesOnly_of_exec_eq_writeBack {i : Instr} {s : State} {d : Reg} {v : Word} {P : Word → Prop}
    (h : exec i s = writeBack s d v) (hv : P v) :
    ∃ t w, exec i s = .next t ∧ P w ∧ WritesOnly s t d w :=
  ⟨_, v, h, hv, writesOnly_writeBack s d v⟩

/-- Settles O8, from the bits of a bitwise and. -/
theorem andWritesTheBitwiseAnd : Obligations.AndWritesTheBitwiseAnd := by
  intro s rd rs rt
  refine writesOnly_of_exec_eq_writeBack (v := s.reg rs &&& s.reg rt) rfl fun k => ?_
  exact BitVec.getLsbD_and

/-- Settles O9: ZIMM's guard clears the bits above 15. -/
theorem andiWritesTheBitwiseAnd : Obligations.AndiWritesTheBitwiseAnd := by
  intro s rt rs imm
  refine writesOnly_of_exec_eq_writeBack (v := s.reg rs &&& zimm imm) rfl fun k => ?_
  rw [BitVec.getLsbD_and, getLsbD_zimm, Bool.and_left_comm]

/-- Settles O10, from the bits of a bitwise or. -/
theorem orWritesTheBitwiseOr : Obligations.OrWritesTheBitwiseOr := by
  intro s rd rs rt
  refine writesOnly_of_exec_eq_writeBack (v := s.reg rs ||| s.reg rt) rfl fun k => ?_
  exact BitVec.getLsbD_or

/-- Settles O11: above bit 15 ZIMM is 0, so rs passes through. -/
theorem oriWritesTheBitwiseOr : Obligations.OriWritesTheBitwiseOr := by
  intro s rt rs imm
  refine writesOnly_of_exec_eq_writeBack (v := s.reg rs ||| zimm imm) rfl fun k => ?_
  rw [BitVec.getLsbD_or, getLsbD_zimm]

/-- Settles O12, from the bits of a bitwise exclusive or. -/
theorem xorWritesTheBitwiseXor : Obligations.XorWritesTheBitwiseXor := by
  intro s rd rs rt
  refine writesOnly_of_exec_eq_writeBack (v := s.reg rs ^^^ s.reg rt) rfl fun k => ?_
  exact BitVec.getLsbD_xor

/-- Settles O13: above bit 15 ZIMM is 0, so no bit of rs flips. -/
theorem xoriWritesTheBitwiseXor : Obligations.XoriWritesTheBitwiseXor := by
  intro s rt rs imm
  refine writesOnly_of_exec_eq_writeBack (v := s.reg rs ^^^ zimm imm) rfl fun k => ?_
  rw [BitVec.getLsbD_xor, getLsbD_zimm]

/-- Settles O14, from the number IMM stands for in the high half. -/
theorem luiWritesTheHighHalf : Obligations.LuiWritesTheHighHalf := by
  intro s rt imm
  exact writesOnly_of_exec_eq_writeBack (v := upperImm imm) rfl (toNat_upperImm imm)

end Sys2Proof.Machine
end

section
/-! The comparisons of rules R132 and R134, over the numbers that the two operands stand for. -/

namespace Sys2Proof.Machine

/-- The 1 or 0 of a comparison over the signed values (rule R130). -/
theorem boolWord_lessSigned (a b : Word) : boolWord (lessSigned a b) = if a.toInt < b.toInt then 1 else 0 := by
  rw [lessSigned, boolWord_decide]

/-- The 1 or 0 of a comparison over the unsigned values (rule R130). -/
theorem boolWord_lessUnsigned (a b : Word) :
    boolWord (lessUnsigned a b) = if a.toNat < b.toNat then 1 else 0 := by
  rw [lessUnsigned, boolWord_decide]

/-- Settles O19: SIMM has the signed value of the immediate. -/
theorem sltiComparesSigned : Obligations.SltiComparesSigned := by
  intro s rt rs imm
  rw [← toInt_simm imm, ← boolWord_lessSigned]
  exact ⟨_, rfl, writesOnly_writeBack s rt _⟩

/-- Settles O21: the registers are compared by their unsigned values. -/
theorem sltuComparesUnsigned : Obligations.SltuComparesUnsigned := by
  intro s rd rs rt
  rw [← boolWord_lessUnsigned]
  exact ⟨_, rfl, writesOnly_writeBack s rd _⟩

end Sys2Proof.Machine
end

section
/-! JR (rule R165), from what setting CP alone leaves unchanged. -/

namespace Sys2Proof.Machine

/-- What jumping without a link does. -/
theorem jumpsTo_goto (s : State) (t : Word) : JumpsTo s (s.goto t) t :=
  ⟨goto_cp s t, fun r => reg_goto s r t, fun b => byteAt_goto s t b, goto_params s t⟩

/-- Settles O34: JR sets CP to rs and ends. -/
theorem jrJumpsToTheRegister : Obligations.JrJumpsToTheRegister := by
  intro s rs
  exact ⟨s.goto (s.reg rs), rfl, jumpsTo_goto s (s.reg rs)⟩

end Sys2Proof.Machine
end

section
/-! Encoding and decoding are inverse (rules R70, R71, R74), and the decoder is the opcode table read as cases. -/

namespace Sys2Proof

/-! ### Decoding an encoded instruction -/

/-- The OP field 0 hands the word over to ext CO (rule R71). -/
theorem decode_formatR (rs rt rd : Reg) (nb : BitVec 5) (ext : BitVec 6) :
    decode (formatR rs rt rd nb ext) = decodeSpecial (formatR rs rt rd nb ext) := by
  simp [decode]

/-- The OP field 1 hands the word over to the field rt (rule R71). -/
theorem decode_formatI_one (rs rt : Reg) (imm : BitVec 16) :
    decode (formatI 1 rs rt imm) = decodeRegimm (formatI 1 rs rt imm) := by
  simp [decode]

/-- A count that can be written comes back from the field nb (rule R120). -/
theorem toNat_ofNat_of_shiftCountOk {nb : Nat} (h : shiftCountOk nb = true) : (BitVec.ofNat 5 nb).toNat = nb := by
  have hlt : nb < 32 := by simpa [shiftCountOk] using h
  rw [BitVec.toNat_ofNat, Nat.mod_eq_of_lt hlt]

/-- Settles O51: the selecting fields lead to the instruction's own case, and each operand field holds its
operand. -/
theorem decodeOfEncode : Obligations.DecodeOfEncode := by
  intro i hwf
  cases i
  case sll | sra | srl =>
    simp only [encode, decode_formatR]
    simp [decodeSpecial, selected, toNat_ofNat_of_shiftCountOk hwf]
  case add | addu | and | jalr | jr | or | slt | sltu | sub | subu | xor =>
    simp only [encode, decode_formatR]
    simp [decodeSpecial, selected]
  case bgez | bgezal | bltz | bltzal =>
    simp only [encode, decode_formatI_one]
    simp [decodeRegimm]
  case j | jal => simp [encode, decode]
  case addi | addiu | andi | beq | bgtz | blez | bneq | lui | lw | ori | slti | sltiu | sw | xori =>
    simp [encode, decode, selected]

/-! ### Encoding a decoded word -/

/-- A word is the format I word of its own fields, whatever number its OP is known by. -/
theorem formatI_of_opField {w : Word} {n : Nat} (h : (opField w).toNat = n) :
    formatI (BitVec.ofNat 6 n) (rsField w) (rtField w) (immField w) = w := by
  rw [← h, BitVec.ofNat_toNat, BitVec.setWidth_eq, formatI_fields]

/-- A word is the format J word of its own fields, whatever number its OP is known by. -/
theorem formatJ_of_opField {w : Word} {n : Nat} (h : (opField w).toNat = n) :
    formatJ (BitVec.ofNat 6 n) (destField w) = w := by
  rw [← h, BitVec.ofNat_toNat, BitVec.setWidth_eq, formatJ_fields]

/-- A word with OP 0 is the format R word of its own fields, whatever number its ext CO is known by. -/
theorem formatR_of_extField {w : Word} {n : Nat} (h0 : opField w = 0#6) (h : (extField w).toNat = n) :
    formatR (rsField w) (rtField w) (rdField w) (nbField w) (BitVec.ofNat 6 n) = w := by
  rw [← h, BitVec.ofNat_toNat, BitVec.setWidth_eq, formatR_fields w h0]

/-- A word with OP 1 is the format I word of its own fields, whatever number its selector rt is known by. -/
theorem formatI_of_rtField {w : Word} {n : Nat} (h1 : (opField w).toNat = 1) (h : (rtField w).toNat = n) :
    formatI 1#6 (rsField w) (BitVec.ofNat 5 n) (immField w) = w := by
  rw [← h, BitVec.ofNat_toNat, BitVec.setWidth_eq, formatI_of_opField h1]

/-- The field nb holds a count that can be written. -/
theorem shiftCountOk_nbField (w : Word) : shiftCountOk (nbField w).toNat = true :=
  decide_eq_true (nbField w).isLt

/-- The 14 rows with OP 0, each with its unused fields 0 (rule R74). -/
theorem encode_of_decodeSpecial {w : Word} {i : Instr} (h0 : opField w = 0#6) (h : decodeSpecial w = .ok i) :
    i.wellFormed = true ∧ encode i = w := by
  unfold decodeSpecial at h
  split at h
  case h_15 => cases h
  all_goals
    rename_i hext
    obtain ⟨hz, rfl⟩ := selected_ok_iff.1 h
    simp only [Bool.and_eq_true, beq_iff_eq] at hz
    have hw := formatR_of_extField h0 hext
    simp only [hz] at hw
    simpa [Instr.wellFormed, shiftCountOk_nbField, encode] using hw

/-- The 4 rows with OP 1. -/
theorem encode_of_decodeRegimm {w : Word} {i : Instr} (h1 : (opField w).toNat = 1)
    (h : decodeRegimm w = .ok i) : i.wellFormed = true ∧ encode i = w := by
  unfold decodeRegimm at h
  split at h
  case h_5 => cases h
  all_goals
    rename_i hrt
    cases h
    exact ⟨rfl, formatI_of_rtField h1 hrt⟩

/-- Settles O52: a decoded word is built again from its own fields, the unused ones being 0. -/
theorem encodeOfDecode : Obligations.EncodeOfDecode := by
  intro w i h
  unfold decode at h
  split at h
  case h_1 hop => exact encode_of_decodeSpecial (BitVec.eq_of_toNat_eq hop) h
  case h_2 hop => exact encode_of_decodeRegimm hop h
  case h_3 hop | h_4 hop => cases h; exact ⟨rfl, formatJ_of_opField hop⟩
  case h_7 hop | h_8 hop | h_16 hop =>
    obtain ⟨hz, rfl⟩ := selected_ok_iff.1 h
    have hw := formatI_of_opField hop
    rw [eq_of_beq hz] at hw
    exact ⟨rfl, hw⟩
  case h_19 => cases h
  all_goals
    rename_i hop
    cases h
    exact ⟨rfl, formatI_of_opField hop⟩

/-! ### The rows of the opcode table -/

/-- A field that the mask covers is the pattern's. -/
theorem extractLsb'_of_and_eq {w m p : Word} {k n : Nat} (h : w &&& m = p)
    (hm : m.extractLsb' k n = BitVec.allOnes n) : w.extractLsb' k n = p.extractLsb' k n := by
  rw [← h, BitVec.extractLsb'_and, hm, BitVec.and_allOnes]

section
variable {w m p : Word} (h : w &&& m = p)
include h

theorem opField_of_and_eq (hm : opField m = 63#6) : opField w = opField p := extractLsb'_of_and_eq h hm
theorem rsField_of_and_eq (hm : rsField m = 31#5) : rsField w = rsField p := extractLsb'_of_and_eq h hm
theorem rtField_of_and_eq (hm : rtField m = 31#5) : rtField w = rtField p := extractLsb'_of_and_eq h hm
theorem rdField_of_and_eq (hm : rdField m = 31#5) : rdField w = rdField p := extractLsb'_of_and_eq h hm
theorem nbField_of_and_eq (hm : nbField m = 31#5) : nbField w = nbField p := extractLsb'_of_and_eq h hm
theorem extField_of_and_eq (hm : extField m = 63#6) : extField w = extField p := extractLsb'_of_and_eq h hm

end

section
variable {w : Word} {op : BitVec 6} {rs rt rd : Reg} {nb : BitVec 5} {ext : BitVec 6}

/-! The seven masks, each over the formats it is used with: a word whose masked bits are those of a word with
the free fields 0 is built from its own free fields and the other word's fixed ones. -/

theorem formatI_of_and_FC000000 (h : w &&& 0xFC000000 = formatI op 0 0 0) :
    formatI op (rsField w) (rtField w) (immField w) = w := by
  have hop := opField_of_and_eq h rfl
  simpa [hop] using formatI_fields w

theorem formatI_of_and_FC1F0000 (h : w &&& 0xFC1F0000 = formatI op 0 rt 0) :
    formatI op (rsField w) rt (immField w) = w := by
  have hop := opField_of_and_eq h rfl
  have hrt := rtField_of_and_eq h rfl
  simpa [hop, hrt] using formatI_fields w

theorem formatI_of_and_FFE00000 (h : w &&& 0xFFE00000 = formatI op rs 0 0) :
    formatI op rs (rtField w) (immField w) = w := by
  have hop := opField_of_and_eq h rfl
  have hrs := rsField_of_and_eq h rfl
  simpa [hop, hrs] using formatI_fields w

theorem formatJ_of_and_FC000000 (h : w &&& 0xFC000000 = formatJ op 0) : formatJ op (destField w) = w := by
  have hop := opField_of_and_eq h rfl
  simpa [hop] using formatJ_fields w

theorem formatR_of_and_FC0007FF (h : w &&& 0xFC0007FF = formatR 0 0 0 nb ext) :
    formatR (rsField w) (rtField w) (rdField w) nb ext = w := by
  have hop := opField_of_and_eq h rfl
  have hnb := nbField_of_and_eq h rfl
  have hext := extField_of_and_eq h rfl
  simpa [hop, hnb, hext] using formatR_fields w

/-- The count is put back as `encode` does. -/
theorem formatR_of_and_FFE0003F (h : w &&& 0xFFE0003F = formatR rs 0 0 0 ext) :
    formatR rs (rtField w) (rdField w) (BitVec.ofNat 5 (nbField w).toNat) ext = w := by
  have hop := opField_of_and_eq h rfl
  have hrs := rsField_of_and_eq h rfl
  have hext := extField_of_and_eq h rfl
  simpa [hop, hrs, hext] using formatR_fields w

theorem formatR_of_and_FC1F07FF (h : w &&& 0xFC1F07FF = formatR 0 rt 0 nb ext) :
    formatR (rsField w) rt (rdField w) nb ext = w := by
  have hop := opField_of_and_eq h rfl
  have hrt := rtField_of_and_eq h rfl
  have hnb := nbField_of_and_eq h rfl
  have hext := extField_of_and_eq h rfl
  simpa [hop, hrt, hnb, hext] using formatR_fields w

theorem formatR_of_and_FC1FFFFF (h : w &&& 0xFC1FFFFF = formatR 0 rt rd nb ext) :
    formatR (rsField w) rt rd nb ext = w := by
  have hop := opField_of_and_eq h rfl
  have hrt := rtField_of_and_eq h rfl
  have hrd := rdField_of_and_eq h rfl
  have hnb := nbField_of_and_eq h rfl
  have hext := extField_of_and_eq h rfl
  simpa [hop, hrt, hrd, hnb, hext] using formatR_fields w

end

/-- Every word of the row is the word of a well-formed instruction that the row names. -/
def OpcodeRow.Encodable (row : OpcodeRow) : Prop :=
  ∀ w, w &&& row.mask = row.pattern →
    ∃ i : Instr, i.mnemonic = row.mnemonic ∧ i.wellFormed = true ∧ encode i = w

theorem arithmeticRows_encodable : ∀ row ∈ arithmeticRows, row.Encodable := by
  simp only [arithmeticRows, List.forall_mem_cons]
  exact ⟨
    fun w h => ⟨.add (rdField w) (rsField w) (rtField w), rfl, rfl, formatR_of_and_FC0007FF h⟩,
    fun w h => ⟨.addi (rtField w) (rsField w) (immField w), rfl, rfl, formatI_of_and_FC000000 h⟩,
    fun w h => ⟨.addiu (rtField w) (rsField w) (immField w), rfl, rfl, formatI_of_and_FC000000 h⟩,
    fun w h => ⟨.addu (rdField w) (rsField w) (rtField w), rfl, rfl, formatR_of_and_FC0007FF h⟩,
    fun w h => ⟨.and (rdField w) (rsField w) (rtField w), rfl, rfl, formatR_of_and_FC0007FF h⟩,
    fun w h => ⟨.andi (rtField w) (rsField w) (immField w), rfl, rfl, formatI_of_and_FC000000 h⟩,
    fun w h => ⟨.lui (rtField w) (immField w), rfl, rfl, formatI_of_and_FFE00000 h⟩,
    fun w h => ⟨.or (rdField w) (rsField w) (rtField w), rfl, rfl, formatR_of_and_FC0007FF h⟩,
    fun w h => ⟨.ori (rtField w) (rsField w) (immField w), rfl, rfl, formatI_of_and_FC000000 h⟩,
    fun w h => ⟨.sub (rdField w) (rsField w) (rtField w), rfl, rfl, formatR_of_and_FC0007FF h⟩,
    fun w h => ⟨.subu (rdField w) (rsField w) (rtField w), rfl, rfl, formatR_of_and_FC0007FF h⟩,
    fun w h => ⟨.xor (rdField w) (rsField w) (rtField w), rfl, rfl, formatR_of_and_FC0007FF h⟩,
    fun w h => ⟨.xori (rtField w) (rsField w) (immField w), rfl, rfl, formatI_of_and_FC000000 h⟩,
    List.forall_mem_nil _⟩

theorem shiftCompareMemoryRows_encodable : ∀ row ∈ shiftCompareMemoryRows, row.Encodable := by
  simp only [shiftCompareMemoryRows, List.forall_mem_cons]
  exact ⟨
    fun w h => ⟨.lw (rtField w) (immField w) (rsField w), rfl, rfl, formatI_of_and_FC000000 h⟩,
    fun w h => ⟨.sll (rdField w) (rtField w) _, rfl, shiftCountOk_nbField w, formatR_of_and_FFE0003F h⟩,
    fun w h => ⟨.slt (rdField w) (rsField w) (rtField w), rfl, rfl, formatR_of_and_FC0007FF h⟩,
    fun w h => ⟨.slti (rtField w) (rsField w) (immField w), rfl, rfl, formatI_of_and_FC000000 h⟩,
    fun w h => ⟨.sltiu (rtField w) (rsField w) (immField w), rfl, rfl, formatI_of_and_FC000000 h⟩,
    fun w h => ⟨.sltu (rdField w) (rsField w) (rtField w), rfl, rfl, formatR_of_and_FC0007FF h⟩,
    fun w h => ⟨.sra (rdField w) (rtField w) _, rfl, shiftCountOk_nbField w, formatR_of_and_FFE0003F h⟩,
    fun w h => ⟨.srl (rdField w) (rtField w) _, rfl, shiftCountOk_nbField w, formatR_of_and_FFE0003F h⟩,
    fun w h => ⟨.sw (rtField w) (immField w) (rsField w), rfl, rfl, formatI_of_and_FC000000 h⟩,
    List.forall_mem_nil _⟩

theorem branchJumpRows_encodable : ∀ row ∈ branchJumpRows, row.Encodable := by
  simp only [branchJumpRows, List.forall_mem_cons]
  exact ⟨
    fun w h => ⟨.beq (rsField w) (rtField w) (immField w), rfl, rfl, formatI_of_and_FC000000 h⟩,
    fun w h => ⟨.bgez (rsField w) (immField w), rfl, rfl, formatI_of_and_FC1F0000 h⟩,
    fun w h => ⟨.bgezal (rsField w) (immField w), rfl, rfl, formatI_of_and_FC1F0000 h⟩,
    fun w h => ⟨.bgtz (rsField w) (immField w), rfl, rfl, formatI_of_and_FC1F0000 h⟩,
    fun w h => ⟨.blez (rsField w) (immField w), rfl, rfl, formatI_of_and_FC1F0000 h⟩,
    fun w h => ⟨.bltz (rsField w) (immField w), rfl, rfl, formatI_of_and_FC1F0000 h⟩,
    fun w h => ⟨.bltzal (rsField w) (immField w), rfl, rfl, formatI_of_and_FC1F0000 h⟩,
    fun w h => ⟨.bneq (rsField w) (rtField w) (immField w), rfl, rfl, formatI_of_and_FC000000 h⟩,
    fun w h => ⟨.j (destField w), rfl, rfl, formatJ_of_and_FC000000 h⟩,
    fun w h => ⟨.jal (destField w), rfl, rfl, formatJ_of_and_FC000000 h⟩,
    fun w h => ⟨.jalr (rsField w) (rdField w), rfl, rfl, formatR_of_and_FC1F07FF h⟩,
    fun w h => ⟨.jr (rsField w), rfl, rfl, formatR_of_and_FC1FFFFF h⟩,
    List.forall_mem_nil _⟩

theorem opcodeTable_encodable : ∀ row ∈ opcodeTable, row.Encodable := by
  simp only [opcodeTable, List.forall_mem_append]
  exact ⟨⟨arithmeticRows_encodable, shiftCompareMemoryRows_encodable⟩, branchJumpRows_encodable⟩

/-- The word of every well-formed instruction belongs to its own row. -/
theorem tableRow : ∀ i : Instr, Laws.TableRow.Statement i
  | .add .. => Laws.TableRow.add _ _ _
  | .addi .. => Laws.TableRow.addi _ _ _
  | .addiu .. => Laws.TableRow.addiu _ _ _
  | .addu .. => Laws.TableRow.addu _ _ _
  | .and .. => Laws.TableRow.and _ _ _
  | .andi .. => Laws.TableRow.andi _ _ _
  | .beq .. => Laws.TableRow.beq _ _ _
  | .bgez .. => Laws.TableRow.bgez _ _
  | .bgezal .. => Laws.TableRow.bgezal _ _
  | .bgtz .. => Laws.TableRow.bgtz _ _
  | .blez .. => Laws.TableRow.blez _ _
  | .bltz .. => Laws.TableRow.bltz _ _
  | .bltzal .. => Laws.TableRow.bltzal _ _
  | .bneq .. => Laws.TableRow.bneq _ _ _
  | .j .. => Laws.TableRow.j _
  | .jal .. => Laws.TableRow.jal _
  | .jalr .. => Laws.TableRow.jalr _ _
  | .jr .. => Laws.TableRow.jr _
  | .lui .. => Laws.TableRow.lui _ _
  | .lw .. => Laws.TableRow.lw _ _ _
  | .or .. => Laws.TableRow.or _ _ _
  | .ori .. => Laws.TableRow.ori _ _ _
  | .sll .. => Laws.TableRow.sll _ _ _
  | .slt .. => Laws.TableRow.slt _ _ _
  | .slti .. => Laws.TableRow.slti _ _ _
  | .sltiu .. => Laws.TableRow.sltiu _ _ _
  | .sltu .. => Laws.TableRow.sltu _ _ _
  | .sra .. => Laws.TableRow.sra _ _ _
  | .srl .. => Laws.TableRow.srl _ _ _
  | .sub .. => Laws.TableRow.sub _ _ _
  | .subu .. => Laws.TableRow.subu _ _ _
  | .sw .. => Laws.TableRow.sw _ _ _
  | .xor .. => Laws.TableRow.xor _ _ _
  | .xori .. => Laws.TableRow.xori _ _ _

/-- Settles O53: a decoded word is its instruction's word, which its row holds, and a row's word is the word
of an instruction the row names, which decodes back. -/
theorem decoderFollowsTheOpcodeTable : Obligations.DecoderFollowsTheOpcodeTable := by
  intro w mn
  constructor
  · rintro ⟨i, hdecode, rfl⟩
    obtain ⟨hwf, rfl⟩ := encodeOfDecode w i hdecode
    obtain ⟨row, hrow, hmn, hholds⟩ := tableRow i hwf
    exact ⟨row, hrow, hmn, eq_of_beq hholds⟩
  · rintro ⟨row, hrow, rfl, hbits⟩
    obtain ⟨i, hmn, hwf, rfl⟩ := opcodeTable_encodable row hrow w hbits
    exact ⟨i, decodeOfEncode i hwf, hmn⟩

/-- Settles O54, by decoding the words. -/
theorem sampleWordsDecode : Obligations.SampleWordsDecode := by
  unfold Obligations.SampleWordsDecode
  decide

end Sys2Proof
end

section
/-! What every step keeps, and what an instruction that completes leaves as it was, from what it can have done. -/

namespace Sys2Proof.Machine

/-- Settles O55: only SW writes memory, and it writes one aligned mapped word. -/
theorem stepKeepsMemoryCanonical : Obligations.StepKeepsMemoryCanonical := by
  intro s t hinv hstep
  obtain ⟨i, -, hexec⟩ := step_next hstep
  obtain ⟨d, v, target, -, rfl⟩ | ⟨-, target, rfl⟩ | ⟨rt, imm, rs, -, ha, hm, rfl⟩ := exec_next_cases hexec
  · exact inv_of_same (by simp) (by simp) hinv
  · exact inv_of_same rfl rfl hinv
  · exact inv_of_same (s := s.setWord _ _) rfl rfl (inv_setWord hinv ha hm)

/-- Settles O56: nothing is listed. -/
theorem resetMemoryIsCanonical : Obligations.ResetMemoryIsCanonical :=
  ⟨wf_reset, fun _ hc => absurd hc List.not_mem_nil⟩

/-- Settles O50: no update of the state touches the parameters. -/
theorem stepKeepsTheParameters : Obligations.StepKeepsTheParameters := by
  intro s t hstep
  obtain ⟨i, -, hexec⟩ := step_next hstep
  obtain ⟨d, v, target, -, rfl⟩ | ⟨-, target, rfl⟩ | ⟨rt, imm, rs, -, -, -, rfl⟩ := exec_next_cases hexec
  · rw [goto_params, setReg_params]
  · rw [goto_params]
  · rw [advance_params, setWord_params]

/-- Settles O47: the one register written is the destination, and a write to R0 is discarded. -/
theorem onlyTheDestinationRegisterChanges : Obligations.OnlyTheDestinationRegisterChanges := by
  intro i s t r hexec hr
  obtain ⟨d, v, target, hd, rfl⟩ | ⟨-, target, rfl⟩ | ⟨rt, imm, rs, -, -, -, rfl⟩ := exec_next_cases hexec
  · have hne : ¬(r = d ∧ r ≠ 0) := by
      rintro ⟨rfl, h0⟩
      exact hr.elim (fun h => h hd) h0
    rw [reg_goto, reg_setReg, if_neg hne]
  · rw [reg_goto]
  · rw [reg_advance, reg_setWord]

/-- Settles O48: of the three ways to complete, only SW's stores a word. -/
theorem onlySwChangesMemory : Obligations.OnlySwChangesMemory := by
  intro i s t hexec hmn a
  obtain ⟨d, v, target, -, rfl⟩ | ⟨-, target, rfl⟩ | ⟨rt, imm, rs, rfl, -, -, -⟩ := exec_next_cases hexec
  · rw [byteAt_goto, byteAt_setReg]
  · rw [byteAt_goto]
  · exact absurd rfl hmn

end Sys2Proof.Machine
end

section
/-! Loads and stores, by the tests of their access (rules R171, R172). -/

namespace Sys2Proof.Machine

variable {s : State} {rt rs : Reg} {imm : BitVec 16} {f : Fault}

theorem execLw_of_accessCheck_none (h : accessCheck s .load (s.effectiveAddress rs imm) = none) :
    execLw rt imm rs s = writeBack s rt (s.wordAt (s.effectiveAddress rs imm)) := by
  simp [execLw, memRead, h]

theorem execLw_of_accessCheck_some (h : accessCheck s .load (s.effectiveAddress rs imm) = some f) :
    execLw rt imm rs s = .fault f := by
  simp [execLw, memRead, h, raise]

theorem execSw_of_accessCheck_none (h : accessCheck s .store (s.effectiveAddress rs imm) = none) :
    execSw rt imm rs s = .next (s.setWord (s.effectiveAddress rs imm) (s.reg rt)).advance := by
  simp [execSw, memWrite, h]

theorem execSw_of_accessCheck_some (h : accessCheck s .store (s.effectiveAddress rs imm) = some f) :
    execSw rt imm rs s = .fault f := by
  simp [execSw, memWrite, h, raise]

end Sys2Proof.Machine
end

section
/-! How each instruction ends, said once for all of them: which can fault, which are refused, which set CP. -/

namespace Sys2Proof.Machine

/-- The fault is one that the instruction's rule gives it (rules R203, R204, R206). -/
def FaultCase (i : Instr) (s : State) (f : Fault) : Prop :=
  (i.mnemonic ∈ ["ADD", "ADDI", "SUB"] ∧ f = .integerOverflow (encode i)) ∨
    (∃ rt imm rs, i = .lw rt imm rs ∧
      (f = .addressError (s.effectiveAddress rs imm) .load ∨
        f = .accessFault (s.effectiveAddress rs imm) .load)) ∨
    (∃ rt imm rs, i = .sw rt imm rs ∧
      (f = .addressError (s.effectiveAddress rs imm) .store ∨
        f = .accessFault (s.effectiveAddress rs imm) .store))

/-- The case is one that rule R207 refuses, under its name. -/
def RefusedCase (i : Instr) (s : State) (r : Refusal) : Prop :=
  (∃ dest, i = .j dest ∧ s.cp.toNat / 4 % 2 ^ 26 = 2 ^ 26 - 1 ∧ r = .jInLastWordOfRegion) ∨
    (∃ dest, i = .jal dest ∧ s.cp.toNat / 4 % 2 ^ 26 = 2 ^ 26 - 1 ∧ r = .jalInLastWordOfRegion) ∨
    (∃ imm, i = .bgezal 31 imm ∧ r = .bgezalOnR31) ∨ (∃ imm, i = .bltzal 31 imm ∧ r = .bltzalOnR31)

/-- The mnemonics of the instructions that set CP themselves. -/
def branchesAndJumps : List String :=
  ["BEQ", "BGEZ", "BGEZAL", "BGTZ", "BLEZ", "BLTZ", "BLTZAL", "BNEQ", "J", "JAL", "JALR", "JR"]

/-- How an instruction ends: it writes a register and goes on, or stores a word and goes on, or is a branch or
jump and transfers control, or it faults or is refused as its rule says. -/
inductive EndsBy (i : Instr) (s : State) : Prop
  | writeBack (d : Reg) (v : Word) (h : exec i s = writeBack s d v)
  | store (a v : Word) (h : exec i s = .next (s.setWord a v).advance)
  | transfer (t : State) (hmn : i.mnemonic ∈ branchesAndJumps) (h : exec i s = .next t)
  | fault (f : Fault) (hf : FaultCase i s f) (h : exec i s = .fault f)
  | refusal (r : Refusal) (hr : RefusedCase i s r) (h : exec i s = .refused r)

theorem endsBy_of_writeSigned {i : Instr} {s : State} {d : Reg} {x : Int}
    (hmn : i.mnemonic ∈ ["ADD", "ADDI", "SUB"]) (h : exec i s = writeSigned i s d x) : EndsBy i s := by
  obtain ⟨-, e⟩ | ⟨-, e⟩ := writeSigned_cases i s d x
  · exact .writeBack _ _ (h.trans e)
  · exact .fault _ (.inl ⟨hmn, rfl⟩) (h.trans e)

theorem endsBy_lw (s : State) (rt rs : Reg) (imm : BitVec 16) : EndsBy (.lw rt imm rs) s := by
  cases hc : accessCheck s .load (s.effectiveAddress rs imm) with
  | none => exact .writeBack _ _ (execLw_of_accessCheck_none hc)
  | some f =>
    exact .fault f (.inr (.inl ⟨rt, imm, rs, rfl, (accessCheck_eq_some.1 hc).imp (·.2) (·.2.2)⟩))
      (execLw_of_accessCheck_some hc)

theorem endsBy_sw (s : State) (rt rs : Reg) (imm : BitVec 16) : EndsBy (.sw rt imm rs) s := by
  cases hc : accessCheck s .store (s.effectiveAddress rs imm) with
  | none => exact .store _ _ (execSw_of_accessCheck_none hc)
  | some f =>
    exact .fault f (.inr (.inr ⟨rt, imm, rs, rfl, (accessCheck_eq_some.1 hc).imp (·.2) (·.2.2)⟩))
      (execSw_of_accessCheck_some hc)

/-- A branch or jump that is refused when `c` holds, and transfers control when not. -/
theorem endsBy_of_ite {i : Instr} {s t : State} {r : Refusal} {c : Prop} [Decidable c]
    (h : exec i s = if c then refuse r else .next t) (hr : c → RefusedCase i s r)
    (hmn : i.mnemonic ∈ branchesAndJumps) : EndsBy i s := by
  by_cases hc : c
  · exact .refusal r (hr hc) (h.trans (if_pos hc))
  · exact .transfer t hmn (h.trans (if_neg hc))

/-- Every instruction ends in one of these ways. -/
theorem endsBy (i : Instr) (s : State) : EndsBy i s := by
  cases i
  case add | addi | sub => exact endsBy_of_writeSigned (by simp [Instr.mnemonic]) rfl
  case lw => exact endsBy_lw ..
  case sw => exact endsBy_sw ..
  case beq | bneq | bgez | bgtz | blez | bltz | jalr | jr =>
    exact .transfer _ (by simp [Instr.mnemonic, branchesAndJumps]) rfl
  case j dest =>
    refine endsBy_of_ite rfl (fun h => ?_) (by simp [Instr.mnemonic, branchesAndJumps])
    exact .inl ⟨dest, rfl, (inLastWordOfRegion_iff s).1 h, rfl⟩
  case jal dest =>
    refine endsBy_of_ite rfl (fun h => ?_) (by simp [Instr.mnemonic, branchesAndJumps])
    exact .inr (.inl ⟨dest, rfl, (inLastWordOfRegion_iff s).1 h, rfl⟩)
  case bgezal rs imm =>
    refine endsBy_of_ite rfl (fun h => ?_) (by simp [Instr.mnemonic, branchesAndJumps])
    exact .inr (.inr (.inl ⟨imm, congrArg (Instr.bgezal · imm) h, rfl⟩))
  case bltzal rs imm =>
    refine endsBy_of_ite rfl (fun h => ?_) (by simp [Instr.mnemonic, branchesAndJumps])
    exact .inr (.inr (.inr ⟨imm, congrArg (Instr.bltzal · imm) h, rfl⟩))
  case addiu | addu | and | andi | lui | or | ori | sll | slt | slti | sltiu | sltu | sra | srl | subu | xor |
      xori =>
    exact .writeBack _ _ rfl

/-- Settles O46, from how each instruction ends. -/
theorem onlyTheNamedInstructionsFault : Obligations.OnlyTheNamedInstructionsFault := by
  intro i s f hexec
  cases endsBy i s with
  | fault g hg h =>
    obtain rfl : g = f := Host.Outcome.fault.inj (h.symm.trans hexec)
    exact hg
  | writeBack _ _ h => cases h.symm.trans hexec
  | store _ _ h => cases h.symm.trans hexec
  | transfer _ _ h => cases h.symm.trans hexec
  | refusal _ _ h => cases h.symm.trans hexec

/-- Each refused case is refused under its name. -/
theorem exec_of_refusedCase {i : Instr} {s : State} {r : Refusal} (h : RefusedCase i s r) :
    exec i s = .refused r := by
  obtain ⟨dest, rfl, hcp, rfl⟩ | ⟨dest, rfl, hcp, rfl⟩ | ⟨imm, rfl, rfl⟩ | ⟨imm, rfl, rfl⟩ := h
  · exact if_pos ((inLastWordOfRegion_iff s).2 hcp)
  · exact if_pos ((inLastWordOfRegion_iff s).2 hcp)
  · rfl
  · rfl

/-- Settles O35: the refused cases are refused, and nothing else ends so. -/
theorem refusedExactlyInTheFourCases : Obligations.RefusedExactlyInTheFourCases := by
  intro i s r
  refine ⟨fun hexec => ?_, exec_of_refusedCase⟩
  cases endsBy i s with
  | refusal q hq h =>
    obtain rfl : q = r := Host.Outcome.refused.inj (h.symm.trans hexec)
    exact hq
  | writeBack _ _ h => cases h.symm.trans hexec
  | store _ _ h => cases h.symm.trans hexec
  | transfer _ _ h => cases h.symm.trans hexec
  | fault _ _ h => cases h.symm.trans hexec

/-- Settles O49: a register write and a store both end in `advance`. -/
theorem onlyBranchesAndJumpsSetCp : Obligations.OnlyBranchesAndJumpsSetCp := by
  intro i s t hexec hmn
  cases endsBy i s with
  | writeBack d v h =>
    cases h.symm.trans hexec
    rw [advance_cp, npc_setReg, npc_def]
  | store a v h =>
    cases h.symm.trans hexec
    rw [advance_cp, npc_setWord, npc_def]
  | transfer _ hmn' _ => exact absurd hmn' hmn
  | fault _ _ h => cases h.symm.trans hexec
  | refusal _ _ h => cases h.symm.trans hexec

end Sys2Proof.Machine
end

section
/-! The byte order cannot be seen (rule R42): what an instruction reads agrees in two states that differ by it
alone, and so does what it writes. -/

namespace Sys2Proof.Machine

namespace SameButByteOrder

variable {s t : State} (h : SameButByteOrder s t)
include h

/-! ### What is read -/

theorem reg (r : Reg) : t.reg r = s.reg r := h.1 r

theorem cp : t.cp = s.cp := h.2.1

theorem wordAt {a : Word} (ha : aligned a = true) (hm : mappedIn s.params a = true) : t.wordAt a = s.wordAt a :=
  h.2.2.2 a ha hm

theorem mappedIn_eq (a : Word) : mappedIn t.params a = mappedIn s.params a := by
  obtain ⟨-, -, hmapped, -⟩ := h
  rw [mappedIn, mappedIn, hmapped]

theorem npc : t.npc = s.npc := by rw [npc_def, npc_def, h.cp]

theorem adbranch (imm : BitVec 16) : t.adbranch imm = s.adbranch imm := by
  rw [State.adbranch, State.adbranch, h.npc]

theorem jumpTarget (dest : BitVec 26) : t.jumpTarget dest = s.jumpTarget dest := by
  rw [State.jumpTarget, State.jumpTarget, h.cp]

theorem inLastWordOfRegion : t.inLastWordOfRegion = s.inLastWordOfRegion := by
  rw [State.inLastWordOfRegion, State.inLastWordOfRegion, h.cp]

theorem effectiveAddress (rs : Reg) (imm : BitVec 16) : t.effectiveAddress rs imm = s.effectiveAddress rs imm := by
  rw [State.effectiveAddress, State.effectiveAddress, h.reg]

theorem accessCheck_eq (k : Access) (a : Word) : accessCheck t k a = accessCheck s k a := by
  rw [accessCheck, accessCheck, h.mappedIn_eq]

theorem memRead_eq (k : Access) (a : Word) : memRead t k a = memRead s k a := by
  unfold memRead
  rw [h.accessCheck_eq]
  cases hc : accessCheck s k a with
  | none =>
    obtain ⟨ha, hm⟩ := accessCheck_eq_none.1 hc
    simp only [h.wordAt ha hm]
  | some f => rfl

theorem fetchInstr_eq : fetchInstr t = fetchInstr s := by
  rw [fetchInstr, fetchInstr, fetchWord, fetchWord, h.cp, h.memRead_eq]

/-! ### What is written -/

theorem goto (a : Word) : SameButByteOrder (s.goto a) (t.goto a) := by
  obtain ⟨hreg, -, hmapped, hword⟩ := h
  exact ⟨hreg, rfl, hmapped, hword⟩

theorem setReg (r : Reg) (v : Word) : SameButByteOrder (s.setReg r v) (t.setReg r v) := by
  refine ⟨fun q => ?_, ?_, ?_, fun a ha hm => ?_⟩
  · rw [reg_setReg, reg_setReg, h.reg]
  · rw [setReg_cp, setReg_cp, h.cp]
  · rw [setReg_params, setReg_params, h.2.2.1]
  · rw [setReg_params] at hm
    rw [wordAt_setReg, wordAt_setReg, h.wordAt ha hm]

theorem setWord {a : Word} (ha : aligned a = true) (v : Word) :
    SameButByteOrder (s.setWord a v) (t.setWord a v) := by
  refine ⟨h.reg, h.cp, h.2.2.1, fun c hc hm => ?_⟩
  by_cases hca : c = a
  · rw [hca, wordAt_setWord_self, wordAt_setWord_self]
  · rw [wordAt_setWord_of_ne _ _ ha hc hca, wordAt_setWord_of_ne _ _ ha hc hca]
    exact h.wordAt hc hm

theorem advance : SameButByteOrder s.advance t.advance := by
  rw [State.advance, State.advance, h.npc]
  exact h.goto s.npc

theorem link (d : Reg) (a : Word) :
    SameButByteOrder ((s.setReg d s.npc).goto a) ((t.setReg d t.npc).goto a) := by
  rw [h.npc]
  exact (h.setReg d s.npc).goto a

/-! ### How an instruction ends -/

theorem endAlike_writeBack (d : Reg) (v : Word) : EndAlike (writeBack s d v) (writeBack t d v) :=
  (h.setReg d v).advance

theorem endAlike_writeSigned (i : Instr) (d : Reg) (x : Int) :
    EndAlike (writeSigned i s d x) (writeSigned i t d x) := by
  unfold writeSigned
  split
  · exact h.endAlike_writeBack d _
  · rfl

theorem endAlike_branchIf (c : Bool) (imm : BitVec 16) : EndAlike (branchIf c imm s) (branchIf c imm t) := by
  rw [branchIf, branchIf, h.adbranch, h.npc]
  exact h.goto _

theorem endAlike_branchAndLinkIf (c : Bool) (imm : BitVec 16) :
    EndAlike (branchAndLinkIf c imm s) (branchAndLinkIf c imm t) := by
  rw [branchAndLinkIf, branchAndLinkIf, h.adbranch, h.npc]
  exact (h.setReg linkReg s.npc).goto _

theorem endAlike_execLw (rt rs : Reg) (imm : BitVec 16) : EndAlike (execLw rt imm rs s) (execLw rt imm rs t) := by
  unfold execLw
  rw [h.effectiveAddress, h.memRead_eq]
  split
  · rfl
  · exact h.endAlike_writeBack rt _

theorem endAlike_execSw (rt rs : Reg) (imm : BitVec 16) : EndAlike (execSw rt imm rs s) (execSw rt imm rs t) := by
  unfold execSw memWrite
  rw [h.effectiveAddress, h.accessCheck_eq, h.reg]
  cases hc : accessCheck s .store (s.effectiveAddress rs imm) with
  | none => exact (h.setWord (accessCheck_eq_none.1 hc).1 (s.reg rt)).advance
  | some f => rfl

end SameButByteOrder

/-- A refusal whose condition agrees ends alike when the other ending does. -/
theorem endAlike_ite {c : Prop} [Decidable c] {r : Refusal} {x y : Result} (hxy : EndAlike x y) :
    EndAlike (if c then refuse r else x) (if c then refuse r else y) := by
  split
  · rfl
  · exact hxy

/-- The same instruction ends alike in states that agree but for the byte order. -/
theorem endAlike_exec {s t : State} (h : SameButByteOrder s t) (i : Instr) : EndAlike (exec i s) (exec i t) := by
  cases i
  case add | addi | sub =>
    simp only [exec, execAdd, execAddi, execSub, h.reg]
    exact h.endAlike_writeSigned ..
  case addiu | addu | subu =>
    simp only [exec, execAddiu, execAddu, execSubu, h.reg]
    exact h.endAlike_writeBack ..
  case and | andi | or | ori | xor | xori | lui =>
    simp only [exec, execAnd, execAndi, execOr, execOri, execXor, execXori, execLui, h.reg]
    exact h.endAlike_writeBack ..
  case sll | sra | srl =>
    simp only [exec, execSll, execSra, execSrl, h.reg]
    exact h.endAlike_writeBack ..
  case slt | slti | sltiu | sltu =>
    simp only [exec, execSlt, execSlti, execSltiu, execSltu, h.reg]
    exact h.endAlike_writeBack ..
  case beq | bneq | bgez | bgtz | blez | bltz =>
    simp only [exec, execBeq, execBneq, execBgez, execBgtz, execBlez, execBltz, h.reg]
    exact h.endAlike_branchIf ..
  case bgezal | bltzal =>
    simp only [exec, execBgezal, execBltzal, h.reg]
    exact endAlike_ite (h.endAlike_branchAndLinkIf ..)
  case j =>
    simp only [exec, execJ, h.inLastWordOfRegion, h.jumpTarget]
    exact endAlike_ite (h.goto _)
  case jal =>
    simp only [exec, execJal, h.inLastWordOfRegion, h.jumpTarget]
    exact endAlike_ite (h.link ..)
  case jalr =>
    simp only [exec, execJalr, h.reg]
    exact h.link ..
  case jr =>
    simp only [exec, execJr, h.reg]
    exact h.goto _
  case lw => exact h.endAlike_execLw ..
  case sw => exact h.endAlike_execSw ..

/-- Settles O57: the two fetches answer alike, and so does the instruction fetched. -/
theorem byteOrderIsUnobservable : Obligations.ByteOrderIsUnobservable := by
  intro s t h
  unfold step
  rw [h.fetchInstr_eq]
  split
  · rfl
  · exact endAlike_exec h _

end Sys2Proof.Machine
end

section
/-! Addition and subtraction (rules R101 to R107), shifts (rules R121 to R123) and the two other comparisons
(rules R131, R133): each ends in `writeBack` or `writeSigned`, so only its value is its own. -/

namespace Sys2Proof.Machine

/-- An instruction that ends by writing `v` back completes, writes a value with any property `v` has, goes on
to the next instruction and changes nothing else. -/
theorem computes_of_exec_eq_writeBack {i : Instr} {s : State} {d : Reg} {v : Word} {P : Word → Prop}
    (h : exec i s = writeBack s d v) (hv : P v) :
    ∃ t w, exec i s = .next t ∧ P w ∧ Computes s t d w :=
  ⟨_, v, h, hv, computes_writeBack s d v⟩

/-! ### Exact signed results -/

/-- An exact signed result in range is the signed value of the word written. -/
theorem computes_of_exec_eq_writeSigned {i : Instr} {s : State} {d : Reg} {x : Int}
    (h : exec i s = writeSigned i s d x) (hlo : -2 ^ 31 ≤ x) (hhi : x ≤ 2 ^ 31 - 1) :
    ∃ t v, exec i s = .next t ∧ v.toInt = x ∧ Computes s t d v := by
  have hfits : fitsSigned x = true := (fitsSigned_iff x).2 ⟨hlo, hhi⟩
  refine computes_of_exec_eq_writeBack (h.trans (if_pos hfits)) ?_
  exact toInt_ofInt_of_fitsSigned hfits

/-- Settles O1: ADD ends in an exact signed result. -/
theorem addWritesTheExactSum : Obligations.AddWritesTheExactSum := by
  intro s rd rs rt hlo hhi
  exact computes_of_exec_eq_writeSigned rfl hlo hhi

/-- Settles O2: SIMM has the signed value of the immediate. -/
theorem addiWritesTheExactSum : Obligations.AddiWritesTheExactSum := by
  intro s rt rs imm hlo hhi
  rw [← toInt_simm imm] at hlo hhi ⊢
  exact computes_of_exec_eq_writeSigned rfl hlo hhi

/-- Settles O3: SUB ends in an exact signed result. -/
theorem subWritesTheExactDifference : Obligations.SubWritesTheExactDifference := by
  intro s rd rs rt hlo hhi
  exact computes_of_exec_eq_writeSigned rfl hlo hhi

/-- An exact signed result out of range overflows, whatever register it was for. -/
theorem writeSigned_of_out_of_range {i : Instr} {s : State} {d : Reg} {x : Int}
    (h : x < -2 ^ 31 ∨ 2 ^ 31 - 1 < x) : writeSigned i s d x = .fault (.integerOverflow (encode i)) := by
  have hfits : ¬fitsSigned x = true := by
    rw [fitsSigned_iff]
    omega
  exact if_neg hfits

/-- Settles O4: the range test does not look at the destination. -/
theorem signedArithmeticFaultsOutOfRange : Obligations.SignedArithmeticFaultsOutOfRange := by
  intro s rd rs rt imm
  refine ⟨writeSigned_of_out_of_range, fun h => ?_, writeSigned_of_out_of_range⟩
  rw [← toInt_simm imm] at h
  exact writeSigned_of_out_of_range h

/-! ### Results modulo 2^32 -/

/-- Settles O5: words are added modulo 2^32. -/
theorem adduWritesTheSumModulo : Obligations.AdduWritesTheSumModulo := by
  intro s rd rs rt
  exact computes_of_exec_eq_writeBack rfl (BitVec.toNat_add (s.reg rs) (s.reg rt))

/-- The word a number is narrowed to stands for it modulo 2^32. -/
theorem natCast_toNat_ofInt (x : Int) : ((BitVec.ofInt 32 x).toNat : Int) = x % 2 ^ 32 := by
  rw [BitVec.toNat_ofInt]
  omega

/-- Adding SIMM, over the numbers: the base plus the signed immediate modulo 2^32. -/
theorem natCast_toNat_add_simm (a : Word) (imm : BitVec 16) :
    ((a + simm imm).toNat : Int) = ((a.toNat : Int) + imm.toInt) % 2 ^ 32 := by
  rw [add_simm_eq_ofInt, natCast_toNat_ofInt]

/-- Settles O6, from the sum with SIMM over the numbers. -/
theorem addiuWritesTheSumModulo : Obligations.AddiuWritesTheSumModulo := by
  intro s rt rs imm
  exact computes_of_exec_eq_writeBack rfl (natCast_toNat_add_simm (s.reg rs) imm)

/-- Settles O36: the effective address is such a sum. -/
theorem effectiveAddressIsBasePlusDisplacement : Obligations.EffectiveAddressIsBasePlusDisplacement := by
  intro s rs imm
  exact natCast_toNat_add_simm (s.reg rs) imm

/-- Subtracting, over the numbers: the difference modulo 2^32. -/
theorem natCast_toNat_sub (a b : Word) : ((a - b).toNat : Int) = ((a.toNat : Int) - (b.toNat : Int)) % 2 ^ 32 := by
  have ha := a.isLt
  have hb := b.isLt
  rw [BitVec.toNat_sub]
  omega

/-- Settles O7, from the difference over the numbers. -/
theorem subuWritesTheDifferenceModulo : Obligations.SubuWritesTheDifferenceModulo := by
  intro s rd rs rt
  exact computes_of_exec_eq_writeBack rfl (natCast_toNat_sub (s.reg rs) (s.reg rt))

/-! ### Shifts -/

/-- Settles O15: shifting left by `nb` is multiplying by 2^nb. -/
theorem sllMultipliesByAPowerOfTwo : Obligations.SllMultipliesByAPowerOfTwo := by
  intro s rd rt nb _
  refine computes_of_exec_eq_writeBack (v := s.reg rt <<< nb) rfl ?_
  rw [BitVec.toNat_shiftLeft, Nat.shiftLeft_eq]

/-- Settles O16: shifting copies of the sign in is dividing by 2^nb, rounded toward minus infinity. -/
theorem sraDividesRoundingDown : Obligations.SraDividesRoundingDown := by
  intro s rd rt nb _
  refine computes_of_exec_eq_writeBack (v := (s.reg rt).sshiftRight nb) rfl ?_
  rw [BitVec.toInt_sshiftRight, Int.shiftRight_eq_div_pow, Int.fdiv_eq_ediv_of_nonneg _ (by positivity)]
  rfl

/-- Settles O17: shifting zeros in is dividing by 2^nb. -/
theorem srlDividesUnsigned : Obligations.SrlDividesUnsigned := by
  intro s rd rt nb _
  refine computes_of_exec_eq_writeBack (v := s.reg rt >>> nb) rfl ?_
  rw [BitVec.toNat_ushiftRight, Nat.shiftRight_eq_div_pow]

/-! ### Comparisons -/

/-- Settles O18: both operands are compared by their signed values. -/
theorem sltComparesSigned : Obligations.SltComparesSigned := by
  intro s rd rs rt
  rw [← boolWord_lessSigned]
  exact ⟨_, rfl, computes_writeBack s rd _⟩

/-- Settles O20: ZIMM has the unsigned value of the immediate. -/
theorem sltiuComparesUnsigned : Obligations.SltiuComparesUnsigned := by
  intro s rt rs imm
  rw [← toNat_zimm imm, ← boolWord_lessUnsigned]
  exact ⟨_, rfl, computes_writeBack s rt _⟩

end Sys2Proof.Machine
end

section
/-! Fetching and the step (rules R25, R208): what a fetch faults on, and when it leads to an instruction. -/

namespace Sys2Proof.Machine

/-- An address that is not a multiple of 4 fails the first test of an access (rule R46). -/
theorem accessCheck_of_misaligned {s : State} {a : Word} (k : Access) (h : a.toNat % 4 ≠ 0) :
    accessCheck s k a = some (.addressError a k) :=
  accessCheck_eq_some.2 (.inl ⟨(aligned_eq_false_iff a).2 h, rfl⟩)

/-- An aligned address outside the map fails the second (rule R50). -/
theorem accessCheck_of_unmapped {s : State} {a : Word} (k : Access) (h : a.toNat % 4 = 0)
    (hm : mappedIn s.params a = false) : accessCheck s k a = some (.accessFault a k) :=
  accessCheck_eq_some.2 (.inr ⟨(aligned_iff a).2 h, hm, rfl⟩)

/-- A fetch whose access fails ends the step in that fault. -/
theorem step_of_accessCheck_some {s : State} {f : Fault} (h : accessCheck s .fetch s.cp = some f) :
    step s = .fault f := by
  have hfetch : fetchInstr s = .error f := by simp [fetchInstr, fetchWord, memRead, h]
  simp [step, hfetch, raise]

/-- A fetch at a CP that is not a multiple of 4 faults (rule R47). -/
theorem step_of_misaligned {s : State} (h : s.cp.toNat % 4 ≠ 0) : step s = .fault (.addressError s.cp .fetch) :=
  step_of_accessCheck_some (accessCheck_of_misaligned .fetch h)

/-- A fetched word that is no instruction ends the step in the fault that records it (rule R202). -/
theorem step_of_undecodable {s : State} (ha : aligned s.cp = true) (hm : mappedIn s.params s.cp = true)
    (h : ∀ i, decode (s.wordAt s.cp) ≠ .ok i) : step s = .fault (.reservedInstruction (s.wordAt s.cp)) := by
  have hword : memRead s .fetch s.cp = .ok (s.wordAt s.cp) := memRead_ok.2 ⟨ha, hm, rfl⟩
  have hfetch : fetchInstr s = .error (.reservedInstruction (s.wordAt s.cp)) := by
    cases hd : decode (s.wordAt s.cp) with
    | ok i => exact absurd hd (h i)
    | error e => simp [fetchInstr, fetchWord, hword, hd]
  simp [step, hfetch, raise]

/-- Settles O45, from the tests of an access and the decoding, in their order. -/
theorem fetchFaultsInOrder : Obligations.FetchFaultsInOrder := by
  intro s
  refine ⟨step_of_misaligned, fun ha hm => ?_, fun ha hm hd => ?_⟩
  · exact step_of_accessCheck_some (accessCheck_of_unmapped .fetch ha hm)
  · exact step_of_undecodable ((aligned_iff _).2 ha) hm hd

/-- A word at an aligned mapped CP that decodes is executed (rule R25). -/
theorem step_of_decode {s : State} {i : Instr} (ha : aligned s.cp = true) (hm : mappedIn s.params s.cp = true)
    (h : decode (s.wordAt s.cp) = .ok i) : step s = exec i s :=
  step_of_fetchInstr (fetchInstr_ok.2 ⟨ha, hm, h⟩)

/-- Four bytes decode as the word that they hold does. -/
theorem decode_of_decodeBytes {bigEndian : Bool} {b0 b1 b2 b3 : Byte} {i : Instr} {rest : List Byte}
    (h : decodeBytes bigEndian [b0, b1, b2, b3] = .ok (i, rest)) :
    decode (wordOf bigEndian b0 b1 b2 b3) = .ok i := by
  cases hd : decode (wordOf bigEndian b0 b1 b2 b3) with
  | ok k =>
    simp only [decodeBytes, hd, Except.ok.injEq, Prod.mk.injEq] at h
    rw [h.1]
  | error e => simp [decodeBytes, hd] at h

/-- Settles O43: the word at CP is the one its four bytes hold. -/
theorem stepRunsTheDecodedInstruction : Obligations.StepRunsTheDecodedInstruction := by
  intro s i rest ha hm hbytes
  exact step_of_decode ha hm (decode_of_decodeBytes hbytes)

/-- Settles O44: the program's first word is stored last, at ENTRY_PC. -/
theorem startedRunBeginsWithTheFirstWord : Obligations.StartedRunBeginsWithTheFirstWord := by
  intro p entryPc w ws i s hs ha hm hdecode
  have hplaced : s = (State.start p entryPc (Memory.writeWords [] p.bigEndian (entryPc + 4) ws)).setWord entryPc w :=
    hs
  subst hplaced
  refine ⟨reg_zero _, rfl, step_of_decode ha hm ?_⟩
  rw [setWord_cp, start_cp, wordAt_setWord_self]
  exact hdecode

end Sys2Proof.Machine
end

section
/-! LW and SW (rules R171, R172), alone and one after the other. -/

namespace Sys2Proof.Machine

/-- A load at an aligned mapped address completes with the word there. -/
theorem execLw_of_mapped {s : State} (rt : Reg) {rs : Reg} {imm : BitVec 16}
    (ha : aligned (s.effectiveAddress rs imm) = true)
    (hm : mappedIn s.params (s.effectiveAddress rs imm) = true) :
    ∃ t, exec (.lw rt imm rs) s = .next t ∧ Computes s t rt (s.wordAt (s.effectiveAddress rs imm)) :=
  ⟨_, execLw_of_accessCheck_none (accessCheck_eq_none.2 ⟨ha, hm⟩), computes_writeBack s rt _⟩

/-- Settles O37: the access passes its tests. -/
theorem lwLoadsTheWord : Obligations.LwLoadsTheWord := by
  intro s rt rs imm ha hm
  exact execLw_of_mapped rt ha hm

/-- Settles O38: what a store does to memory, and that it sets nothing else but CP. -/
theorem swStoresTheWord : Obligations.SwStoresTheWord := by
  intro s rt rs imm ha hm
  refine ⟨_, execSw_of_accessCheck_none (accessCheck_eq_none.2 ⟨ha, hm⟩), storesWord_setWord s _ _, ?_, ?_, ?_⟩
  · rw [advance_cp, npc_setWord, npc_def]
  · intro r
    rw [reg_advance, reg_setWord]
  · rw [advance_params, setWord_params]

/-- Settles O39, from the tests of an access, alignment first. -/
theorem dataAccessFaultsInOrder : Obligations.DataAccessFaultsInOrder := by
  intro s rt rs imm
  refine ⟨fun h => ⟨?_, ?_⟩, fun h hm => ⟨?_, ?_⟩⟩
  · exact execLw_of_accessCheck_some (accessCheck_of_misaligned .load h)
  · exact execSw_of_accessCheck_some (accessCheck_of_misaligned .store h)
  · exact execLw_of_accessCheck_some (accessCheck_of_unmapped .load h hm)
  · exact execSw_of_accessCheck_some (accessCheck_of_unmapped .store h hm)

@[simp] theorem effectiveAddress_advance (s : State) (rs : Reg) (imm : BitVec 16) :
    s.advance.effectiveAddress rs imm = s.effectiveAddress rs imm := rfl

@[simp] theorem effectiveAddress_setWord (s : State) (a v : Word) (rs : Reg) (imm : BitVec 16) :
    (s.setWord a v).effectiveAddress rs imm = s.effectiveAddress rs imm := rfl

/-- Settles O40: the store changes neither the base register nor the map, and its word is the word read. -/
theorem loadAfterStoreGivesTheStoredWord : Obligations.LoadAfterStoreGivesTheStoredWord := by
  intro s t rt rs rd imm hexec
  obtain ⟨ha, hm, rfl⟩ := execSw_next hexec
  have hload := execLw_of_mapped (s := (s.setWord (s.effectiveAddress rs imm) (s.reg rt)).advance) rd ha hm
  rwa [wordAt_advance, effectiveAddress_advance, effectiveAddress_setWord, wordAt_setWord_self] at hload

/-- Settles O41: a fetch reads the memory that the store wrote. -/
theorem storeIsSeenByTheFetch : Obligations.StoreIsSeenByTheFetch := by
  intro s t rt rs imm i hexec hdecode hcp
  obtain ⟨ha, hm, rfl⟩ := execSw_next hexec
  refine step_of_decode ?_ ?_ ?_
  · rw [hcp]; exact ha
  · rw [hcp]; exact hm
  · rw [hcp, wordAt_advance, wordAt_setWord_self]; exact hdecode

end Sys2Proof.Machine
end

section
/-! Branches (rules R140 to R150): each is `branchIf` or `branchAndLinkIf` on its own condition. -/

namespace Sys2Proof.Machine

/-- Where a branch goes when its condition is `p`, over the numbers (rules R10, R140). -/
theorem branch_target (s : State) (p : Prop) [Decidable p] (imm : BitVec 16) :
    (if decide p then s.adbranch imm else s.npc) =
      if p then BitVec.ofInt 32 (s.cp.toNat + 4 + imm.toInt) else s.cp + 4 := by
  rw [adbranch_eq_ofInt, npc_def]
  simp only [decide_eq_true_eq]

/-- A branch whose condition is `p` completes and goes where its condition says. -/
theorem jumpsTo_of_branchIf {i : Instr} {s : State} {c : Bool} {imm : BitVec 16} {p : Prop} [Decidable p]
    (h : exec i s = branchIf c imm s) (hc : c = decide p) :
    ∃ t, exec i s = .next t ∧
      JumpsTo s t (if p then BitVec.ofInt 32 (s.cp.toNat + 4 + imm.toInt) else s.cp + 4) := by
  rw [h, hc, ← branch_target]
  exact jumpsTo_branchIf (decide p) imm s

/-- A linking branch whose condition is `p` completes, links and goes where its condition says. -/
theorem linksAndJumpsTo_of_branchAndLinkIf {i : Instr} {s : State} {c : Bool} {imm : BitVec 16} {p : Prop}
    [Decidable p] (h : exec i s = branchAndLinkIf c imm s) (hc : c = decide p) :
    ∃ t, exec i s = .next t ∧
      LinksAndJumpsTo s t 31 (if p then BitVec.ofInt 32 (s.cp.toNat + 4 + imm.toInt) else s.cp + 4) := by
  rw [h, hc, ← branch_target]
  exact ⟨_, rfl, linksAndJumpsTo_goto s linkReg _⟩

/-- Settles O22: the condition of BEQ is the equality of the registers. -/
theorem beqBranchesWhenEqual : Obligations.BeqBranchesWhenEqual := by
  intro s rs rt imm
  exact jumpsTo_of_branchIf rfl (beq_eq_decide _ _)

/-- Settles O23: the condition of BNEQ is that of BEQ the other way round. -/
theorem bneqBranchesWhenDifferent : Obligations.BneqBranchesWhenDifferent := by
  intro s rs rt imm
  rw [← ite_not]
  exact jumpsTo_of_branchIf rfl (by rw [bne, beq_eq_decide, decide_not])

/-- Settles O24: a signed value is not negative when the sign bit is 0. -/
theorem bgezBranchesOnSignBitClear : Obligations.BgezBranchesOnSignBitClear := by
  intro s rs imm
  exact jumpsTo_of_branchIf rfl (geZero_eq (s.reg rs))

/-- Settles O25: a signed value is positive when it is not 0 and the sign bit is 0. -/
theorem bgtzBranchesOnPositive : Obligations.BgtzBranchesOnPositive := by
  intro s rs imm
  exact jumpsTo_of_branchIf rfl (gtZero_eq (s.reg rs))

/-- Settles O26: a signed value is zero or negative when it is 0 or the sign bit is 1. -/
theorem blezBranchesOnZeroOrNegative : Obligations.BlezBranchesOnZeroOrNegative := by
  intro s rs imm
  exact jumpsTo_of_branchIf rfl (leZero_eq (s.reg rs))

/-- Settles O27: a signed value is negative when the sign bit is 1. -/
theorem bltzBranchesOnSignBitSet : Obligations.BltzBranchesOnSignBitSet := by
  intro s rs imm
  exact jumpsTo_of_branchIf rfl (ltZero_eq (s.reg rs))

/-- Settles O28: with rs other than R31 it is not refused. -/
theorem bgezalLinksAndBranches : Obligations.BgezalLinksAndBranches := by
  intro s rs imm hrs
  exact linksAndJumpsTo_of_branchAndLinkIf (if_neg hrs) (geZero_eq (s.reg rs))

/-- Settles O29: with rs other than R31 it is not refused. -/
theorem bltzalLinksAndBranches : Obligations.BltzalLinksAndBranches := by
  intro s rs imm hrs
  exact linksAndJumpsTo_of_branchAndLinkIf (if_neg hrs) (ltZero_eq (s.reg rs))

/-- A byte displacement that is not a multiple of 4 leads from an aligned CP to a misaligned target. -/
theorem branch_target_misaligned {cp : Word} {imm : BitVec 16} (hcp : cp.toNat % 4 = 0) (himm : imm.toNat % 4 ≠ 0) :
    (BitVec.ofInt 32 (cp.toNat + 4 + imm.toInt)).toNat % 4 ≠ 0 := by
  have htarget := natCast_toNat_ofInt (cp.toNat + 4 + imm.toInt)
  have hsigned := BitVec.toInt_eq_toNat_cond imm
  split at hsigned <;> omega

/-- Settles O30: the taken BEQ completes, and the fetch at its target faults. -/
theorem misalignedBranchTargetFaultsAtTheFetch : Obligations.MisalignedBranchTargetFaultsAtTheFetch := by
  intro s rs rt imm hcp heq himm
  obtain ⟨t, hexec, htarget, -⟩ := beqBranchesWhenEqual s rs rt imm
  rw [if_pos heq] at htarget
  refine ⟨t, hexec, htarget, step_of_misaligned ?_⟩
  rw [htarget]
  exact branch_target_misaligned ((aligned_iff s.cp).1 hcp) himm

end Sys2Proof.Machine
end

section
/-! Jumps (rules R160 to R164) outside the last word of a region, and the targets an assembler reaches (rule R83). -/

namespace Sys2Proof.Machine

theorem not_inLastWordOfRegion {s : State} (h : s.cp.toNat / 4 % 2 ^ 26 ≠ 2 ^ 26 - 1) :
    ¬s.inLastWordOfRegion = true := fun hlast => h ((inLastWordOfRegion_iff s).1 hlast)

/-- J outside the last word of a region is not refused. -/
theorem exec_j {s : State} (dest : BitVec 26) (h : s.cp.toNat / 4 % 2 ^ 26 ≠ 2 ^ 26 - 1) :
    exec (.j dest) s = .next (s.goto (s.jumpTarget dest)) := if_neg (not_inLastWordOfRegion h)

/-- Settles O31, from the target over the numbers. -/
theorem jJumpsWithinItsRegion : Obligations.JJumpsWithinItsRegion := by
  intro s dest hcp
  exact ⟨_, s.jumpTarget dest, exec_j dest hcp, toNat_jumpTarget s dest, jumpsTo_goto s _⟩

/-- Settles O32: as J, with the link that every linking jump stores. -/
theorem jalLinksAndJumpsWithinItsRegion : Obligations.JalLinksAndJumpsWithinItsRegion := by
  intro s dest hcp
  exact ⟨_, s.jumpTarget dest, if_neg (not_inLastWordOfRegion hcp), toNat_jumpTarget s dest,
    linksAndJumpsTo_goto s linkReg _⟩

/-- Settles O33: the target is read before the link is written. -/
theorem jalrLinksAndJumpsToTheOldRegister : Obligations.JalrLinksAndJumpsToTheOldRegister := by
  intro s rs rd
  exact ⟨_, rfl, linksAndJumpsTo_goto s rd (s.reg rs)⟩

/-- A number in the signed range of 16 bits is the signed value of the immediate it is narrowed to. -/
theorem simm_ofInt {x : Int} (hlo : -32768 ≤ x) (hhi : x ≤ 32767) :
    simm (BitVec.ofInt 16 x) = BitVec.ofInt 32 x := by
  apply BitVec.eq_of_toInt_eq
  rw [toInt_simm, BitVec.toInt_ofInt, BitVec.toInt_ofInt, Int.bmod_def, Int.bmod_def]
  omega

/-- The displacement assembled for a target leads to it. -/
theorem adbranch_of_branchImm {s : State} {target : Word} {imm : BitVec 16}
    (h : branchImm s.cp target = .ok imm) : s.adbranch imm = target := by
  unfold branchImm at h
  simp only at h
  split at h
  case isFalse => cases h
  case isTrue hrange =>
    cases h
    rw [State.adbranch, npc_def, simm_ofInt hrange.1 hrange.2, BitVec.ofInt_toInt, add_sub_cancel]

/-- The field assembled for a target leads to it. -/
theorem jumpTarget_of_jumpField {s : State} {target : Word} {dest : BitVec 26}
    (h : jumpField s.cp target = .ok dest) : s.jumpTarget dest = target := by
  unfold jumpField at h
  split at h
  case isTrue => cases h
  case isFalse haligned =>
    split at h
    case isTrue => cases h
    case isFalse hregion =>
      cases h
      have ha : target.toNat % 4 = 0 := (aligned_iff target).1 (Bool.eq_true_of_not_eq_false haligned)
      have hr : target.toNat / 2 ^ 28 % 2 ^ 4 = s.cp.toNat / 2 ^ 28 % 2 ^ 4 := by
        have := congrArg BitVec.toNat (not_not.1 hregion)
        simpa only [BitVec.extractLsb'_toNat, Nat.shiftRight_eq_div_pow] using this
      have hcp := s.cp.isLt
      have htarget := target.isLt
      apply BitVec.eq_of_toNat_eq
      rw [toNat_jumpTarget, BitVec.extractLsb'_toNat, Nat.shiftRight_eq_div_pow]
      omega

/-- Settles O60: BEQ and J go where the assembler's displacement and field lead. -/
theorem assembledTargetsAreReached : Obligations.AssembledTargetsAreReached := by
  intro s target rs rt imm dest
  constructor
  · intro himm heq
    obtain ⟨t, hexec, ht, -⟩ := beqBranchesWhenEqual s rs rt imm
    rw [if_pos heq, ← adbranch_eq_ofInt, adbranch_of_branchImm himm] at ht
    exact ⟨t, hexec, ht⟩
  · intro hdest hcp
    exact ⟨_, exec_j dest hcp, jumpTarget_of_jumpField hdest⟩

end Sys2Proof.Machine
end

section
/-! Runs (rules R201, R236), by what one step of a run does. -/

namespace Sys2Proof.Machine

variable {endPc : Word} {s t : State} {f : Fault} {r : Refusal}

/-- At END_PC a run is over, whatever number of steps is left (rule R236). -/
theorem runUntil_of_cp_eq (n : Nat) (h : s.cp = endPc) : runUntil endPc n s = .over s := by
  cases n <;> exact if_pos h

theorem runUntil_zero (h : s.cp ≠ endPc) : runUntil endPc 0 s = .running s := if_neg h

theorem runUntil_of_next (k : Nat) (h : s.cp ≠ endPc) (hstep : step s = .next t) :
    runUntil endPc (k + 1) s = runUntil endPc k t := by
  simp [runUntil, h, hstep]

theorem runUntil_of_fault (k : Nat) (h : s.cp ≠ endPc) (hstep : step s = .fault f) :
    runUntil endPc (k + 1) s = .faulted s f := by
  simp [runUntil, h, hstep]

theorem runUntil_of_refused (k : Nat) (h : s.cp ≠ endPc) (hstep : step s = .refused r) :
    runUntil endPc (k + 1) s = .refused s r := by
  simp [runUntil, h, hstep]

/-- Settles O58, by induction on the number of steps. -/
theorem finishedRunStandsAtItsEnd : Obligations.FinishedRunStandsAtItsEnd := by
  intro endPc n
  induction n with
  | zero =>
    intro s t hrun
    by_cases hcp : s.cp = endPc
    · rw [runUntil_of_cp_eq 0 hcp] at hrun
      cases hrun
      exact hcp
    · rw [runUntil_zero hcp] at hrun
      cases hrun
  | succ n ih =>
    intro s t hrun
    by_cases hcp : s.cp = endPc
    · rw [runUntil_of_cp_eq (n + 1) hcp] at hrun
      cases hrun
      exact hcp
    · cases hstep : step s with
      | next u => exact ih u t (runUntil_of_next n hcp hstep ▸ hrun)
      | fault f => rw [runUntil_of_fault n hcp hstep] at hrun; cases hrun
      | refused r => rw [runUntil_of_refused n hcp hstep] at hrun; cases hrun

/-- Settles O59, by induction on the number of steps: the steps before the fault are taken again, and then the
run stands still. -/
theorem faultedRunStaysFaulted : Obligations.FaultedRunStaysFaulted := by
  intro endPc n k s t f
  induction n generalizing s with
  | zero =>
    intro hrun
    by_cases hcp : s.cp = endPc
    · rw [runUntil_of_cp_eq 0 hcp] at hrun; cases hrun
    · rw [runUntil_zero hcp] at hrun; cases hrun
  | succ n ih =>
    intro hrun
    by_cases hcp : s.cp = endPc
    · rw [runUntil_of_cp_eq (n + 1) hcp] at hrun; cases hrun
    rw [Nat.add_right_comm]
    cases hstep : step s with
    | next u =>
      rw [runUntil_of_next _ hcp hstep] at hrun ⊢
      exact ih u hrun
    | fault g =>
      rw [runUntil_of_fault _ hcp hstep] at hrun ⊢
      cases hrun
      exact ⟨hstep, hcp, rfl⟩
    | refused r => rw [runUntil_of_refused _ hcp hstep] at hrun; cases hrun

end Sys2Proof.Machine
end
